-- ==== Sys2Proof/Word.lean ====
section
/-! DEFINITION. The word and byte types of PSEC-OTP1 (spec/00_scope.md R7): 32-bit words, 8-bit bytes.
`+` on words wraps modulo 2^32 and all words are unsigned, as BitVec has it. -/

namespace Sys2Proof

/-- A 32-bit word `x[31:0]` (R7): register contents, command words, bus data. -/
abbrev Word := BitVec 32

/-- An 8-bit byte of a buffer (R8). -/
abbrev Byte := BitVec 8

/-- The five state words H0..H4, the digest hold register D0..D4, a digest (R33, R36). -/
abbrev Words5 := Vector Word 5

/-- A 64-byte buffer or block as sixteen words: M, K, W, a padded block (R34, R35, R53). -/
abbrev Words16 := Vector Word 16

end Sys2Proof
end

