-- ==== Sys2Proof/Config.lean ====
section
/-! DEFINITION. The open parameters of spec/00_scope.md R6 (S4, S5 of spec/93_implementation_defined.md).
They have no body: a statement that mentions one holds whatever its value (notes/assumptions/8.md). -/

namespace Sys2Proof.Config

/-- The page number of the register window: BASE is OPEN, a multiple of 0x100 (R6, R71, D2). -/
opaque basePage : Nat

/-- `BASE`, the byte address of the 256-byte register window (R6, R71). -/
def base : Nat := 0x100 * basePage

/-- `CLK`, the clock frequency in hertz: OPEN, and no rule depends on it (R6, D12). -/
opaque clockHz : Nat

/-- `ROUND_STEP_CYCLES`, the clock cycles of one engine step: OPEN (default 1), and no rule depends on it (R6, R265, D12). -/
opaque roundStepCycles : Nat

end Sys2Proof.Config
end

