-- ==== Sys2Proof/Syntax.lean ====
section
/-! DEFINITION. The command set of PSEC-OTP1: one constructor per row of spec/opcode_table.json
(spec/30_encoding.md R90 to R92). Every operand but ARG is implicit (R91). -/

namespace Sys2Proof

/-- The twelve commands. ARG is the 7-bit field c[14:8], present only where the opcode map admits one (R91, R92). -/
inductive Instr where
  /-- NOP, OP 0x00: no operation (R200). -/
  | nop
  /-- SHA_INIT, OP 0x01: start a new digest (R120). -/
  | shaInit
  /-- SHA_COMPRESS, OP 0x02: compress the 64-byte block in M (R121). -/
  | shaCompress
  /-- SHA_FINAL n, OP 0x03: pad and compress the last block, n message bytes (R124). -/
  | shaFinal (n : BitVec 7)
  /-- SAVE_DIGEST, OP 0x04: D <- H (R127). -/
  | saveDigest
  /-- MSG_FROM_DIGEST, OP 0x05: M0..M4 <- D (R128). -/
  | msgFromDigest
  /-- KEY_PAD len, OP 0x10: zero K after its first len bytes (R161). -/
  | keyPad (len : BitVec 7)
  /-- KEY_FROM_DIGEST, OP 0x11: K <- H, zero-padded (R162). -/
  | keyFromDigest
  /-- HMAC_IPAD, OP 0x12: M <- K xor the inner pad (R164). -/
  | hmacIpad
  /-- HMAC_OPAD, OP 0x13: M <- K xor the outer pad (R165). -/
  | hmacOpad
  /-- HOTP_TRUNC, OP 0x20: dynamic truncation and decimal reduction of D (R181). -/
  | hotpTrunc
  /-- ZEROIZE, OP 0x30: clear every data register (R201). -/
  | zeroize
  deriving DecidableEq, Repr

end Sys2Proof
end

