-- ==== Sys2Proof/WellFormed.lean ====
section
/-! DEFINITION. Well-formed commands: the argument ranges of spec/30_encoding.md R94.
A command outside them has an encoding, but acceptance rejects it with ERR_ARG (R210). -/

namespace Sys2Proof

/-- The ARG of a command is in range: n <= 63 for SHA_FINAL, len <= 64 for KEY_PAD (R94); no other command has one. -/
def Instr.wf : Instr → Bool
  | .shaFinal n => n.toNat ≤ 63
  | .keyPad len => len.toNat ≤ 64
  | .nop | .shaInit | .shaCompress | .saveDigest | .msgFromDigest | .keyFromDigest => true
  | .hmacIpad | .hmacOpad | .hotpTrunc | .zeroize => true

end Sys2Proof
end

