-- ==== Sys2Proof/Decode.lean ====
section
/-! DEFINITION. Decoding and encoding of command words (spec/30_encoding.md R90 to R95, spec/opcode_table.json).
Both are written from the one opcode map of R92. -/

namespace Sys2Proof

/-- OP = c[7:0] (R90). -/
def opField (c : Word) : BitVec 8 := c.extractLsb' 0 8

/-- ARG = c[14:8] (R90). -/
def argField (c : Word) : BitVec 7 := c.extractLsb' 8 7

/-- RSV = c[31:15], reserved, must be 0 (R90). -/
def rsvField (c : Word) : BitVec 17 := c.extractLsb' 15 17

/-- The twelve opcodes of R92, without their argument. -/
inductive Opcode where
  | nop | shaInit | shaCompress | shaFinal | saveDigest | msgFromDigest
  | keyPad | keyFromDigest | hmacIpad | hmacOpad | hotpTrunc | zeroize
  deriving DecidableEq, Repr

/-- One row of the opcode map: a word c matches it when `c & mask = match` (R92). -/
structure OpRow where
  op : Opcode
  pattern : Word
  mask : Word
  deriving DecidableEq, Repr

/-- The opcode map, row for row (R92). -/
def opcodeMap : List OpRow := [
  ⟨.nop,           0x00000000, 0xFFFFFFFF⟩,
  ⟨.shaInit,       0x00000001, 0xFFFFFFFF⟩,
  ⟨.shaCompress,   0x00000002, 0xFFFFFFFF⟩,
  ⟨.shaFinal,      0x00000003, 0xFFFF80FF⟩,
  ⟨.saveDigest,    0x00000004, 0xFFFFFFFF⟩,
  ⟨.msgFromDigest, 0x00000005, 0xFFFFFFFF⟩,
  ⟨.keyPad,        0x00000010, 0xFFFF80FF⟩,
  ⟨.keyFromDigest, 0x00000011, 0xFFFFFFFF⟩,
  ⟨.hmacIpad,      0x00000012, 0xFFFFFFFF⟩,
  ⟨.hmacOpad,      0x00000013, 0xFFFFFFFF⟩,
  ⟨.hotpTrunc,     0x00000020, 0xFFFFFFFF⟩,
  ⟨.zeroize,       0x00000030, 0xFFFFFFFF⟩]

/-- The word matches the row (R92). -/
def OpRow.matches (r : OpRow) (c : Word) : Bool := (c &&& r.mask) == r.pattern

/-- The command of an opcode with the argument field ARG (R91); the field is 0 wherever the opcode takes none. -/
def Opcode.instr : Opcode → BitVec 7 → Instr
  | .nop, _ => .nop
  | .shaInit, _ => .shaInit
  | .shaCompress, _ => .shaCompress
  | .shaFinal, n => .shaFinal n
  | .saveDigest, _ => .saveDigest
  | .msgFromDigest, _ => .msgFromDigest
  | .keyPad, len => .keyPad len
  | .keyFromDigest, _ => .keyFromDigest
  | .hmacIpad, _ => .hmacIpad
  | .hmacOpad, _ => .hmacOpad
  | .hotpTrunc, _ => .hotpTrunc
  | .zeroize, _ => .zeroize

/-- Why a word matches no row (R93). All three are reported as ERR_OPCODE; the names are the model's (notes/assumptions/10.md). -/
inductive DecodeError where
  /-- OP is none of the twelve values (R93, R95). -/
  | unknownOpcode
  /-- OP is listed, RSV is not 0 (R93). -/
  | reservedBitsSet
  /-- OP is listed, RSV is 0, ARG is not 0 for an opcode whose ARG must be 0 (R93). -/
  | argumentNotZero
  deriving DecidableEq, Repr

/-- The name of the rejection of a word that matches no row (R93). -/
def rejectionOf (c : Word) : DecodeError :=
  if opcodeMap.all (fun r => opField r.pattern != opField c) then .unknownOpcode
  else if rsvField c != 0 then .reservedBitsSet
  else .argumentNotZero

/-- Decode a command word: the unique row that matches, or a rejection by name (R93). -/
def decode (c : Word) : Except DecodeError Instr :=
  match opcodeMap.find? (·.matches c) with
  | some r => .ok (r.op.instr (argField c))
  | none => .error (rejectionOf c)

/-- The opcode of a command. -/
def Instr.opcode : Instr → Opcode
  | .nop => .nop
  | .shaInit => .shaInit
  | .shaCompress => .shaCompress
  | .shaFinal _ => .shaFinal
  | .saveDigest => .saveDigest
  | .msgFromDigest => .msgFromDigest
  | .keyPad _ => .keyPad
  | .keyFromDigest => .keyFromDigest
  | .hmacIpad => .hmacIpad
  | .hmacOpad => .hmacOpad
  | .hotpTrunc => .hotpTrunc
  | .zeroize => .zeroize

/-- The ARG field of a command's word: its argument, 0 where it has none (R90, R91). -/
def Instr.arg : Instr → BitVec 7
  | .shaFinal n => n
  | .keyPad len => len
  | .nop | .shaInit | .shaCompress | .saveDigest | .msgFromDigest | .keyFromDigest => 0
  | .hmacIpad | .hmacOpad | .hotpTrunc | .zeroize => 0

/-- The match word of an opcode's row (R92). -/
def Opcode.pattern (o : Opcode) : Word :=
  match opcodeMap.find? (·.op == o) with
  | some r => r.pattern
  | none => 0

/-- The command word of a command: `match | ARG << 8` (R92, R102). -/
def encode (i : Instr) : Word := i.opcode.pattern ||| (i.arg.setWidth 32 <<< 8)

/-- The host's question: the command my decoder reads from a word of `nbits` bits numbered as the opcode table numbers
them; a value past 32 bits is no command word. -/
def decodeTableWord (nbits w : Nat) : Option Instr :=
  let v := w % 2 ^ nbits
  if v < 2 ^ 32 then
    match decode (BitVec.ofNat 32 v) with
    | .ok i => some i
    | .error _ => none
  else none

end Sys2Proof
end

