-- ==== Sys2Proof/Machine/State.lean ====
section
/-! DEFINITION. The state of PSEC-OTP1 and of the agents around it, as plain data
(spec/10_state.md R20 to R54, spec/20_memory.md R70, R80, spec/70_reset_and_hazards.md R251). -/

namespace Sys2Proof.Machine

/-- The sequencer phase (R50). BUSY = (phase != IDLE) (R24). -/
inductive Phase where
  /-- The engine has no step. -/
  | idle
  /-- The next engine step is round t (R116). -/
  | round
  /-- The next engine step is the feed-forward (R117). -/
  | feed
  deriving DecidableEq, Repr

/-- The W1C bits STATUS[6:1] (R23). BUSY is computed from the phase and the reserved bits read 0. -/
structure Status where
  /-- bit 1 (R25) -/
  done : Bool
  /-- bit 2 (R26) -/
  errBusy : Bool
  /-- bit 3 (R27) -/
  errOpcode : Bool
  /-- bit 4 (R28) -/
  errArg : Bool
  /-- bit 5 (R29) -/
  errAccess : Bool
  /-- bit 6 (R30) -/
  lenOvf : Bool
  deriving DecidableEq, Repr

/-- The interrupt enables INTEN[1:0] (R31). -/
structure Inten where
  /-- bit 0 -/
  doneIe : Bool
  /-- bit 1 -/
  errIe : Bool
  deriving DecidableEq, Repr

/-- The result registers of the HOTP unit, at the width of their fields; the bits above read 0 (R37 to R40, R77). -/
structure HotpRegs where
  /-- HOTP_OFFSET[3:0] (R37) -/
  offset : BitVec 4
  /-- HOTP_TRUNC[30:0] (R38) -/
  trunc : BitVec 31
  /-- HOTP_CODE[19:0] (R39) -/
  code : BitVec 20
  /-- HOTP_BCD[23:0], DIG0 in bits 23:20 down to DIG5 in bits 3:0 (R40) -/
  bcd : BitVec 24
  deriving DecidableEq, Repr

/-- The working registers A, B, C, Dw, E (R52). -/
structure Work where
  a : Word
  b : Word
  c : Word
  dw : Word
  e : Word
  deriving DecidableEq, Repr

/-- The registers of the window (R20); a reserved offset holds none (R41). -/
inductive Reg where
  | id | cmd | status | inten | mlen
  | h (i : Fin 5) | m (i : Fin 16) | k (i : Fin 16) | d (i : Fin 5)
  | hotpOffset | hotpTrunc | hotpCode | hotpBcd
  deriving DecidableEq, Repr

/-- `bus_size` (R70): 0 is one byte, 1 two bytes, 2 four bytes, 3 reserved (treated as not 4 bytes). -/
inductive BusSize where
  | one | two | four | reserved
  deriving DecidableEq, Repr

/-- One bus access to this block's window: `(offset, size, write, wdata)` (R70). -/
structure Access where
  offset : BitVec 8
  size : BusSize
  write : Bool
  wdata : Word
  deriving DecidableEq, Repr

/-- One line of an assembled host program, one bus access each (R101, R102): a BEQ reads and then the host branches. -/
inductive HostOp where
  /-- `WR reg, imm32` -/
  | wr (reg : Reg) (imm : Word)
  /-- `RD reg` -/
  | rd (reg : Reg)
  /-- `BEQ reg, mask, value, label`, its label resolved to the index of a line -/
  | beq (reg : Reg) (mask value : Word) (target : Nat)
  deriving DecidableEq, Repr

/-- The host agent, outside the block (R80, R100): its assembled program and the index of the line it runs next. -/
structure HostAgent where
  prog : List HostOp
  pc : Nat
  deriving DecidableEq, Repr

/-- One step of one agent (R80, R85, R250). -/
inductive Turn where
  /-- The host agent makes the access of its next line (R80). -/
  | host
  /-- A bus master makes this access: any size and offset (R70, R85). -/
  | bus (a : Access)
  /-- The engine takes one step if it has one (R80). -/
  | engine
  /-- `rst_n` is sampled low (R250). -/
  | assertReset
  /-- `rst_n` returns high (R250). -/
  | releaseReset
  deriving DecidableEq, Repr

/-- Everything a step reads or writes. The block has no other state (R54); the last three fields are the bus's read port
and the agents outside the block. -/
structure State where
  /-- STATUS[6:1] (R23) -/
  status : Status
  /-- INTEN[1:0] (R31) -/
  inten : Inten
  /-- MLEN (R32) -/
  mlen : Word
  /-- H0..H4 (R33) -/
  h : Words5
  /-- M0..M15 (R34) -/
  m : Words16
  /-- K0..K15 (R35) -/
  k : Words16
  /-- D0..D4 (R36) -/
  d : Words5
  /-- HOTP_OFFSET, HOTP_TRUNC, HOTP_CODE, HOTP_BCD (R37 to R40) -/
  hotp : HotpRegs
  /-- the sequencer phase (R50) -/
  phase : Phase
  /-- the round index t (R50) -/
  t : BitVec 7
  /-- PEND2: a second padding block is still to be compressed (R51) -/
  pend2 : Bool
  /-- BITLEN: the bit count latched for that block (R51) -/
  bitlen : BitVec 64
  /-- A, B, C, Dw, E (R52) -/
  work : Work
  /-- the W buffer W[0..15] (R53) -/
  w : Words16
  /-- the level of `rst_n`: true is released (R70, R250) -/
  rstN : Bool
  /-- what the last access returned on `bus_rdata`; none after a write (R70, R73; notes/assumptions/4.md) -/
  rdata : Option Word
  /-- the host agent (R80; notes/assumptions/3.md) -/
  host : HostAgent
  /-- the interleaving: whose turn comes next (R80; notes/assumptions/1.md) -/
  turns : List Turn
  deriving DecidableEq, Repr

/-- Why the machine would stop with a fault. The block never signals a bus error and has no traps (R70, R216): every
access completes and every misuse is a STATUS bit, so there is no such reason. -/
inductive Fault where
  deriving DecidableEq, Repr

/-- Why the model would give a step no meaning. -/
inductive Refusal where
  /-- A command without a meaning in the model. Raised by exec's refused arms only, and no arm is refused. Safe. -/
  | notModelled (mnemonic : String)
  deriving DecidableEq, Repr

/-- Sixteen zero words (R251). -/
def zero16 : Words16 := Vector.replicate 16 0

/-- Five zero words (R251). -/
def zero5 : Words5 := Vector.replicate 5 0

/-- The machine right after reset (R251, R252): idle, every host-visible register 0, `rst_n` released, no access made yet.
DESIGN CHOICE (notes/assumptions/2.md): t, BITLEN, A..E and W, which the spec leaves unspecified, are 0.
DESIGN CHOICE (notes/assumptions/1.md and 3.md): no host program and no turn is pending. -/
def State.reset : State where
  status := ⟨false, false, false, false, false, false⟩
  inten := ⟨false, false⟩
  mlen := 0
  h := zero5
  m := zero16
  k := zero16
  d := zero5
  hotp := ⟨0, 0, 0, 0⟩
  phase := .idle
  t := 0
  pend2 := false
  bitlen := 0
  work := ⟨0, 0, 0, 0, 0⟩
  w := zero16
  rstN := true
  rdata := none
  host := ⟨[], 0⟩
  turns := []

end Sys2Proof.Machine
end

