-- ==== Sys2Proof/Machine/Operands.lean ====
section
/-! DEFINITION. Operand forms and bit-field helpers: rotation (spec/00_scope.md R7), the byte view of word arrays (R8),
ARG as a byte count (spec/30_encoding.md R91), block words from bytes (spec/40_sha1_engine.md R114). -/

namespace Sys2Proof.Machine

/-- `ROTL_n(x)`: rotation left of a 32-bit word (R7). -/
def rotl (n : Nat) (x : Word) : Word := (x <<< n) ||| (x >>> (32 - n))

/-- `byte(X, j)`, for 0 <= j < 4n: bits 31 - 8(j mod 4) down to 24 - 8(j mod 4) of word j div 4 (R8, R72). -/
def byteOf {n : Nat} (x : Vector Word n) (j : Nat) : Byte :=
  ((x[j / 4]?).getD 0).extractLsb' (24 - 8 * (j % 4)) 8

/-- A word with its byte number r (0 is bits 31:24) replaced, the other 24 bits as they were (R8). -/
def replaceByte (x : Word) (r : Nat) (v : Byte) : Word :=
  (x &&& ~~~(0xFF#32 <<< (24 - 8 * r))) ||| (v.setWidth 32 <<< (24 - 8 * r))

/-- `setbyte(X, j, v)`, for 0 <= j < 4n (R8). -/
def setByte {n : Nat} (x : Vector Word n) (j : Nat) (v : Byte) : Vector Word n :=
  x.setIfInBounds (j / 4) (replaceByte ((x[j / 4]?).getD 0) (j % 4) v)

/-- Four bytes as one big-endian word: `b0 << 24 | b1 << 16 | b2 << 8 | b3` (R114). -/
def packWord (b0 b1 b2 b3 : Byte) : Word := b0 ++ b1 ++ b2 ++ b3

/-- A 64-byte block b_0..b_63 as sixteen words (R114). -/
def blockOfBytes (b : Nat → Byte) : Words16 :=
  Vector.ofFn fun i => packWord (b (4 * i)) (b (4 * i + 1)) (b (4 * i + 2)) (b (4 * i + 3))

/-- Byte j of a 64-bit integer in big-endian order: `bl[63-8j : 56-8j]` (R125). -/
def lengthByte (bl : BitVec 64) (j : Nat) : Byte := bl.extractLsb' (56 - 8 * j) 8

/-- ARG read as a byte count, 0..127 (R91). -/
def argCount (arg : BitVec 7) : Nat := arg.toNat

/-- The argument range of SHA_FINAL: n <= 63 (R94). -/
def finalArgOk (n : BitVec 7) : Bool := argCount n ≤ 63

/-- The argument range of KEY_PAD: len <= 64 (R94). -/
def keyPadArgOk (len : BitVec 7) : Bool := argCount len ≤ 64

end Sys2Proof.Machine
end

