-- ==== Sys2Proof/Machine/Flags.lean ====
section
/-! DEFINITION. STATUS and INTEN as words, every flag computation and the interrupt line
(spec/10_state.md R23 to R31, spec/60_exceptions.md R215, R220). -/

namespace Sys2Proof.Machine

/-- `STATUS.BUSY = (phase != IDLE)` (R24). -/
def State.busy (s : State) : Bool := s.phase != .idle

/-- One bit as a word, at bit position i. -/
def flagBit (b : Bool) (i : Nat) : Word := if b then 1#32 <<< i else 0

/-- STATUS as a read returns it (R23): BUSY in bit 0, the W1C bits in 6:1, reserved bits 0. -/
def State.statusWord (s : State) : Word :=
  flagBit s.busy 0 ||| flagBit s.status.done 1 ||| flagBit s.status.errBusy 2 ||| flagBit s.status.errOpcode 3 |||
    flagBit s.status.errArg 4 ||| flagBit s.status.errAccess 5 ||| flagBit s.status.lenOvf 6

/-- INTEN as a read returns it (R31): reserved bits 0. -/
def State.intenWord (s : State) : Word := flagBit s.inten.doneIe 0 ||| flagBit s.inten.errIe 1

/-- `ERR_ANY = (STATUS[6:2] != 0)` (R23, R215). -/
def State.errAny (s : State) : Bool :=
  s.status.errBusy || s.status.errOpcode || s.status.errArg || s.status.errAccess || s.status.lenOvf

/-- `irq = (STATUS.DONE & INTEN.DONE_IE) | (ERR_ANY & INTEN.ERR_IE)`, a function of state at every step (R220). -/
def State.irq (s : State) : Bool := (s.status.done && s.inten.doneIe) || (s.errAny && s.inten.errIe)

/-- Write 1 to clear: `STATUS[6:1] <- STATUS[6:1] & ~v[6:1]` (R23). -/
def Status.w1c (f : Status) (v : Word) : Status where
  done := f.done && !v.getLsbD 1
  errBusy := f.errBusy && !v.getLsbD 2
  errOpcode := f.errOpcode && !v.getLsbD 3
  errArg := f.errArg && !v.getLsbD 4
  errAccess := f.errAccess && !v.getLsbD 5
  lenOvf := f.lenOvf && !v.getLsbD 6

/-- `INTEN[1:0] <- v[1:0]` (R31). -/
def intenOfWord (v : Word) : Inten := ⟨v.getLsbD 0, v.getLsbD 1⟩

/-- MLEN + n passes 2^32 - 1 (R30, R121, R124). -/
def lengthWraps (mlen : Word) (n : Nat) : Bool := 2 ^ 32 ≤ mlen.toNat + n

end Sys2Proof.Machine
end

