-- ==== Sys2Proof/Machine/Ops.lean ====
section
/-! DEFINITION. The shared operations over the state: raising an error and acknowledging it
(spec/60_exceptions.md R214, R217), the acceptance of a command (R210, R211, R218), counting message bytes
(spec/40_sha1_engine.md R121, R124), starting a block (R115). -/

namespace Sys2Proof.Machine

/-- The error kinds a refused access or command raises (R215, codes 2 to 5). LEN_OVF (code 6) refuses nothing: `addLength` sets it. -/
inductive ErrorKind where
  | errBusy | errOpcode | errArg | errAccess
  deriving DecidableEq, Repr

/-- STATUS with the bit of that kind set; a bit already 1 stays 1 (R214). -/
def Status.raise (f : Status) : ErrorKind → Status
  | .errBusy => { f with errBusy := true }
  | .errOpcode => { f with errOpcode := true }
  | .errArg => { f with errArg := true }
  | .errAccess => { f with errAccess := true }

/-- `raise Error(kind)`, the block's whole exception mechanism (R214, R216): one sticky STATUS bit is set, nothing is saved,
no control moves. -/
def raiseError (kind : ErrorKind) (s : State) : State := { s with status := s.status.raise kind }

/-- The acknowledge, this block's counterpart of a return from an exception (R216, R217): a W1C write of v to STATUS (R23). -/
def ackStatus (v : Word) (s : State) : State := { s with status := s.status.w1c v }

/-- `STATUS.DONE <- b` (R210, R218). -/
def setDone (b : Bool) (s : State) : State := { s with status := { s.status with done := b } }

/-- Accept a command that completes in its own step (R210): rejected with ERR_BUSY while busy, else DONE is cleared, the
effect happens, DONE is set. -/
def acceptSingle (effect : State → State) (s : State) : Host.Outcome State Fault Refusal :=
  if s.busy then .next (raiseError .errBusy s) else .next (setDone true (effect (setDone false s)))

/-- Accept a command that starts the engine (R210): rejected with ERR_BUSY while busy, else DONE is cleared and the engine
starts; the last FEED step sets DONE (R218). -/
def acceptMulti (start : State → State) (s : State) : Host.Outcome State Fault Refusal :=
  if s.busy then .next (raiseError .errBusy s) else .next (start (setDone false s))

/-- The argument check of a command (R94, R210, R211): BUSY is reported before a bad argument. -/
def checkArg (ok : Bool) (accept : State → Host.Outcome State Fault Refusal) (s : State) : Host.Outcome State Fault Refusal :=
  if s.busy then .next (raiseError .errBusy s) else if ok then accept s else .next (raiseError .errArg s)

/-- Count n more message bytes (R121, R124): MLEN wraps modulo 2^32, and a wrap sets the sticky LEN_OVF. -/
def addLength (n : Nat) (s : State) : State :=
  { s with
    mlen := s.mlen + BitVec.ofNat 32 n
    status := { s.status with lenOvf := s.status.lenOvf || lengthWraps s.mlen n } }

/-- The working registers loaded from H (R115). -/
def workOf (h : Words5) : Work := ⟨h[0], h[1], h[2], h[3], h[4]⟩

/-- `startBlock(blk)` (R115): W from the block, A..E from H, t = 0, phase ROUND. -/
def startBlock (blk : Words16) (s : State) : State :=
  { s with w := blk, work := workOf s.h, t := 0, phase := .round }

end Sys2Proof.Machine
end

