-- ==== Sys2Proof/Machine/Control.lean ====
section
/-! DEFINITION. The control commands NOP and ZEROIZE (spec/43_control.md R200, R201). -/

namespace Sys2Proof.Machine

/-- NOP (R200): no register changes; DONE is cleared and set. -/
def execNop (s : State) : Host.Outcome State Fault Refusal := acceptSingle (fun s => s) s

/-- Every data register and the internal state cleared (R201). STATUS and INTEN are not touched, phase is already IDLE and
t is not in the rule's list. -/
def clearData (s : State) : State :=
  { s with
    mlen := 0, h := zero5, d := zero5, m := zero16, k := zero16, hotp := ⟨0, 0, 0, 0⟩
    work := ⟨0, 0, 0, 0, 0⟩, w := zero16, bitlen := 0, pend2 := false }

/-- ZEROIZE (R201). -/
def execZeroize (s : State) : Host.Outcome State Fault Refusal := acceptSingle clearData s

end Sys2Proof.Machine
end

