-- ==== Sys2Proof/Machine/HmacKey.lean ====
section
/-! DEFINITION. The HMAC key normalizer: KEY_PAD, KEY_FROM_DIGEST, HMAC_IPAD, HMAC_OPAD
(spec/41_hmac_key.md R161 to R165). -/

namespace Sys2Proof.Machine

/-- IPADW, the byte 0x36 four times (R163). -/
def ipadWord : Word := 0x36363636

/-- OPADW, the byte 0x5c four times (R163). -/
def opadWord : Word := 0x5C5C5C5C

/-- `for j in len..63: setbyte(K, j, 0x00)` (R161). -/
def zeroKeyFrom (len : Nat) (k : Words16) : Words16 :=
  (List.range' len (64 - len)).foldl (fun k j => setByte k j 0x00) k

/-- KEY_PAD len (R161): len > 64 is rejected with ERR_ARG (R94). -/
def execKeyPad (len : BitVec 7) (s : State) : Host.Outcome State Fault Refusal :=
  checkArg (keyPadArgOk len) (acceptSingle fun s => { s with k := zeroKeyFrom (argCount len) s.k }) s

/-- A 20-byte digest right-padded with zeros to 64 bytes (R162). -/
def keyOfDigest (h : Words5) : Words16 := Vector.ofFn fun i => if h' : i.val < 5 then h[i.val] else 0

/-- KEY_FROM_DIGEST (R162): K0..K4 <- H, K5..K15 <- 0. -/
def execKeyFromDigest (s : State) : Host.Outcome State Fault Refusal :=
  acceptSingle (fun s => { s with k := keyOfDigest s.h }) s

/-- Every word of the key exclusive-or a pad word (R163). -/
def xorPad (pad : Word) (k : Words16) : Words16 := Vector.ofFn fun i => k[i] ^^^ pad

/-- HMAC_IPAD (R164): M <- K xor the inner pad. -/
def execHmacIpad (s : State) : Host.Outcome State Fault Refusal :=
  acceptSingle (fun s => { s with m := xorPad ipadWord s.k }) s

/-- HMAC_OPAD (R165): M <- K xor the outer pad. -/
def execHmacOpad (s : State) : Host.Outcome State Fault Refusal :=
  acceptSingle (fun s => { s with m := xorPad opadWord s.k }) s

end Sys2Proof.Machine
end

