-- ==== Sys2Proof/Machine/Hotp.lean ====
section
/-! DEFINITION. The HOTP truncation and modular-reduction unit: HOTP_TRUNC (spec/42_hotp.md R180 to R182). -/

namespace Sys2Proof.Machine

/-- `offset = mac[19] & 0x0F`, the low nibble of the last byte (R180). -/
def truncOffset (d : Words5) : BitVec 4 := (byteOf d 19).extractLsb' 0 4

/-- `P`: the four bytes from `mac[offset]`, big-endian, the top bit masked off (R180). -/
def truncValue (d : Words5) : BitVec 31 :=
  let o := (truncOffset d).toNat
  (packWord (byteOf d o) (byteOf d (o + 1)) (byteOf d (o + 2)) (byteOf d (o + 3))).setWidth 31

/-- `code = P mod 1_000_000` (R180). -/
def hotpCode (p : BitVec 31) : Nat := p.toNat % 1000000

/-- `dig_k = (code / 10^(5-k)) mod 10`, most significant first (R182). -/
def hotpDigit (code k : Nat) : BitVec 4 := BitVec.ofNat 4 (code / 10 ^ (5 - k) % 10)

/-- `dig_0 << 20 | ... | dig_5` (R182). -/
def hotpBcd (code : Nat) : BitVec 24 :=
  hotpDigit code 0 ++ hotpDigit code 1 ++ hotpDigit code 2 ++ hotpDigit code 3 ++ hotpDigit code 4 ++ hotpDigit code 5

/-- The four results of HOTP_TRUNC, a function of D alone (R181, R190). -/
def hotpResults (d : Words5) : HotpRegs :=
  let p := truncValue d
  { offset := truncOffset d, trunc := p, code := BitVec.ofNat 20 (hotpCode p), bcd := hotpBcd (hotpCode p) }

/-- HOTP_TRUNC (R181). -/
def execHotpTrunc (s : State) : Host.Outcome State Fault Refusal :=
  acceptSingle (fun s => { s with hotp := hotpResults s.d }) s

end Sys2Proof.Machine
end

