-- ==== Sys2Proof/Machine/Sha1.lean ====
section
/-! DEFINITION. The SHA-1 compression engine: constants, round function, padding, and the commands SHA_INIT, SHA_COMPRESS,
SHA_FINAL, SAVE_DIGEST, MSG_FROM_DIGEST (spec/40_sha1_engine.md R110 to R112, R116, R120 to R128). -/

namespace Sys2Proof.Machine

/-- The initial chaining value IV0..IV4 (R110). -/
def initialValue : Words5 := #v[0x67452301, 0xEFCDAB89, 0x98BADCFE, 0x10325476, 0xC3D2E1F0]

/-- The round constant K_t (R111). -/
def roundConstant (t : Nat) : Word :=
  if t < 20 then 0x5A827999 else if t < 40 then 0x6ED9EBA1 else if t < 60 then 0x8F1BBCDC else 0xCA62C1D6

/-- Ch, rounds 0 to 19 (R112). -/
def choose (b c d : Word) : Word := (b &&& c) ||| (~~~b &&& d)

/-- Parity, rounds 20 to 39 and 60 to 79 (R112). -/
def parity (b c d : Word) : Word := b ^^^ c ^^^ d

/-- Maj, rounds 40 to 59 (R112). -/
def majority (b c d : Word) : Word := (b &&& c) ||| (b &&& d) ||| (c &&& d)

/-- The round function f_t(b, c, d) (R112; spec/90_conflicts.md C7: three formulas for four ranges). -/
def roundFunction (t : Nat) (b c d : Word) : Word :=
  if t < 20 then choose b c d else if t < 40 then parity b c d else if t < 60 then majority b c d else parity b c d

/-- The round equation and register shuffle of round t on schedule word w (R116). -/
def roundWork (t : Nat) (w : Word) (r : Work) : Work where
  a := rotl 5 r.a + roundFunction t r.b r.c r.dw + r.e + roundConstant t + w
  b := r.a
  c := rotl 30 r.b
  dw := r.c
  e := r.dw

/-- The word the W buffer appends: `ROTL_1(W[13] ^ W[8] ^ W[2] ^ W[0])` (R113, R116). -/
def nextScheduleWord (w : Words16) : Word := rotl 1 (w[13] ^^^ w[8] ^^^ w[2] ^^^ w[0])

/-- The W buffer rotated down by one word, `nextScheduleWord` appended (R116). -/
def rotateWindow (w : Words16) : Words16 :=
  Vector.ofFn fun i => if h : i.val < 15 then w[i.val + 1] else nextScheduleWord w

/-- The feed-forward: each working register added to its state word, modulo 2^32 (R117; spec/90_conflicts.md C2). -/
def feedForward (h : Words5) (r : Work) : Words5 :=
  #v[h[0] + r.a, h[1] + r.b, h[2] + r.c, h[3] + r.dw, h[4] + r.e]

/-- Byte j of the first padding block: message bytes, 0x80, zeros, and for n <= 55 the bit length in bytes 56..63 (R125). -/
def padByte1 (m : Words16) (n : Nat) (bl : BitVec 64) (j : Nat) : Byte :=
  if j < n then byteOf m j
  else if j = n then 0x80
  else if n ≤ 55 ∧ 56 ≤ j then lengthByte bl (j - 56)
  else 0x00

/-- `padBlock1(M, n, bl)` (R125). -/
def padBlock1 (m : Words16) (n : Nat) (bl : BitVec 64) : Words16 := blockOfBytes (padByte1 m n bl)

/-- `padBlock2(bl)`: words 0..13 are 0, word 14 is bl[63:32], word 15 is bl[31:0] (R126). -/
def padBlock2 (bl : BitVec 64) : Words16 :=
  Vector.ofFn fun i => if i.val = 14 then bl.extractLsb' 32 32 else if i.val = 15 then bl.extractLsb' 0 32 else 0

/-- The bit length of a message of `mlen` bytes: `zext_64(MLEN) * 8` (R124). -/
def bitLength (mlen : Word) : BitVec 64 := mlen.setWidth 64 * 8

/-- SHA_INIT (R120): H <- IV, MLEN <- 0. LEN_OVF is not cleared. -/
def execShaInit (s : State) : Host.Outcome State Fault Refusal :=
  acceptSingle (fun s => { s with h := initialValue, mlen := 0 }) s

/-- What an accepted SHA_COMPRESS starts (R121). -/
def startCompress (s : State) : State :=
  let s := addLength 64 s
  startBlock s.m { s with pend2 := false }

/-- SHA_COMPRESS (R121): count 64 bytes and start the block in M; 80 ROUND steps and one FEED step follow. -/
def execShaCompress (s : State) : Host.Outcome State Fault Refusal := acceptMulti startCompress s

/-- What an accepted SHA_FINAL n starts (R124): for n <= 55 one padded block (PEND2 = 0, BITLEN kept), else a first block with
PEND2 = 1 and BITLEN latched for the second. -/
def startFinal (n : Nat) (s : State) : State :=
  let s := addLength n s
  let bl := bitLength s.mlen
  startBlock (padBlock1 s.m n bl) { s with pend2 := decide (55 < n), bitlen := if n ≤ 55 then s.bitlen else bl }

/-- SHA_FINAL n (R124): n > 63 is rejected with ERR_ARG (R94). -/
def execShaFinal (n : BitVec 7) (s : State) : Host.Outcome State Fault Refusal :=
  checkArg (finalArgOk n) (acceptMulti (startFinal (argCount n))) s

/-- SAVE_DIGEST (R127): D <- H. -/
def execSaveDigest (s : State) : Host.Outcome State Fault Refusal :=
  acceptSingle (fun s => { s with d := s.h }) s

/-- M with its first five words replaced by the held digest (R128). -/
def messageFromDigest (m : Words16) (d : Words5) : Words16 :=
  Vector.ofFn fun i => if h : i.val < 5 then d[i.val] else m[i]

/-- MSG_FROM_DIGEST (R128): M0..M4 <- D, the rest of M unchanged. -/
def execMsgFromDigest (s : State) : Host.Outcome State Fault Refusal :=
  acceptSingle (fun s => { s with m := messageFromDigest s.m s.d }) s

end Sys2Proof.Machine
end

