-- ==== Sys2Proof/Machine/Dispatch.lean ====
section
/-! DEFINITION. The meaning of every command: one arm per constructor of Instr (spec/30_encoding.md R92). -/

namespace Sys2Proof.Machine

-- A command as the acceptance check of spec/60_exceptions.md R210 meets it once its word is decoded.
def exec (i : Instr) (s : State) : Host.Outcome State Fault Refusal :=
  match i with
  | .nop => Sys2Proof.Machine.execNop s
  | .shaInit => Sys2Proof.Machine.execShaInit s
  | .shaCompress => Sys2Proof.Machine.execShaCompress s
  | .shaFinal n => Sys2Proof.Machine.execShaFinal n s
  | .saveDigest => Sys2Proof.Machine.execSaveDigest s
  | .msgFromDigest => Sys2Proof.Machine.execMsgFromDigest s
  | .keyPad len => Sys2Proof.Machine.execKeyPad len s
  | .keyFromDigest => Sys2Proof.Machine.execKeyFromDigest s
  | .hmacIpad => Sys2Proof.Machine.execHmacIpad s
  | .hmacOpad => Sys2Proof.Machine.execHmacOpad s
  | .hotpTrunc => Sys2Proof.Machine.execHotpTrunc s
  | .zeroize => Sys2Proof.Machine.execZeroize s

end Sys2Proof.Machine
end

