-- ==== Sys2Proof/Machine/Bus.lean ====
section
/-! DEFINITION. The register window: the register map (spec/10_state.md R20, R41), reads and writes
(spec/20_memory.md R73 to R78), the CMD write (spec/60_exceptions.md R210), a bus access (R70, R250). -/

namespace Sys2Proof.Machine

/-- The constant of the ID register, "SHA1" in ASCII (R21). -/
def idValue : Word := 0x53484131

/-- The byte offset of a register in the window (R20). -/
def Reg.offset : Reg → BitVec 8
  | .id => 0x00
  | .cmd => 0x04
  | .status => 0x08
  | .inten => 0x0C
  | .mlen => 0x10
  | .h i => BitVec.ofNat 8 (0x20 + 4 * i)
  | .m i => BitVec.ofNat 8 (0x40 + 4 * i)
  | .k i => BitVec.ofNat 8 (0x80 + 4 * i)
  | .d i => BitVec.ofNat 8 (0xC0 + 4 * i)
  | .hotpOffset => 0xE0
  | .hotpTrunc => 0xE4
  | .hotpCode => 0xE8
  | .hotpBcd => 0xEC

/-- Every register of the window (R20). -/
def allRegs : List Reg :=
  [.id, .cmd, .status, .inten, .mlen] ++ (List.finRange 5).map .h ++ (List.finRange 16).map .m ++
    (List.finRange 16).map .k ++ (List.finRange 5).map .d ++ [.hotpOffset, .hotpTrunc, .hotpCode, .hotpBcd]

/-- The register at an offset; none at a reserved offset (R20, R41) and at an offset that is not a multiple of 4. -/
def regAt (off : BitVec 8) : Option Reg := allRegs.find? (·.offset == off)

/-- The busy-locked registers: CMD, MLEN, H, M, K, D (R20, R75). -/
def Reg.busyLocked : Reg → Bool
  | .cmd | .mlen | .h _ | .m _ | .k _ | .d _ => true
  | .id | .status | .inten | .hotpOffset | .hotpTrunc | .hotpCode | .hotpBcd => false

/-- The read-only registers (R20, R76). -/
def Reg.readOnly : Reg → Bool
  | .id | .hotpOffset | .hotpTrunc | .hotpCode | .hotpBcd => true
  | .cmd | .status | .inten | .mlen | .h _ | .m _ | .k _ | .d _ => false

/-- The 32-bit value an admitted read of the register returns, reserved bits 0 (R21 to R40, R74, R77). CMD reads 0 (R22). -/
def readReg (r : Reg) (s : State) : Word :=
  match r with
  | .id => idValue
  | .cmd => 0
  | .status => s.statusWord
  | .inten => s.intenWord
  | .mlen => s.mlen
  | .h i => s.h[i]
  | .m i => s.m[i]
  | .k i => s.k[i]
  | .d i => s.d[i]
  | .hotpOffset => s.hotp.offset.setWidth 32
  | .hotpTrunc => s.hotp.trunc.setWidth 32
  | .hotpCode => s.hotp.code.setWidth 32
  | .hotpBcd => s.hotp.bcd.setWidth 32

/-- A CMD write of the word c (R22, R210): BUSY first, then the encoding, then the command's own acceptance, where the
argument is checked (R211). -/
def writeCmd (c : Word) (s : State) : Host.Outcome State Fault Refusal :=
  if s.busy then .next (raiseError .errBusy s)
  else
    match decode c with
    | .error _ => .next (raiseError .errOpcode s)
    | .ok i => exec i s

/-- What a write does once no check stops it: `register <- v` (R78). CMD has its own acceptance, read-only registers have none. -/
def storeReg (r : Reg) (v : Word) (s : State) : State :=
  match r with
  | .status => ackStatus v s
  | .inten => { s with inten := intenOfWord v }
  | .mlen => { s with mlen := v }
  | .h i => { s with h := s.h.set i v }
  | .m i => { s with m := s.m.set i v }
  | .k i => { s with k := s.k.set i v }
  | .d i => { s with d := s.d.set i v }
  | .id | .cmd | .hotpOffset | .hotpTrunc | .hotpCode | .hotpBcd => s

/-- An admitted write to a register (R75, R76, R78). -/
def writeReg (r : Reg) (v : Word) (s : State) : Host.Outcome State Fault Refusal :=
  if r.busyLocked && s.busy then .next (raiseError .errBusy s)
  else if r.readOnly then .next (raiseError .errAccess s)
  else if r = .cmd then writeCmd v s
  else .next (storeReg r v s)

/-- An access is admitted when it moves 32 bits at a multiple of 4 (R73). -/
def Access.admitted (a : Access) : Bool := a.size == .four && a.offset.extractLsb' 0 2 == 0

/-- What an access that returns v leaves on `bus_rdata` (R70): nothing for a write. -/
def respond (a : Access) (v : Word) (s : State) : State := { s with rdata := if a.write then none else some v }

/-- One bus access (R70, R73, R74, R76, R78). While `rst_n` is low it is not performed: a read returns 0 and no error bit is
set (R250). -/
def busAccess (a : Access) (s : State) : Host.Outcome State Fault Refusal :=
  if !s.rstN then .next (respond a 0 s)
  else if !a.admitted then .next (respond a 0 (raiseError .errAccess s))
  else
    match regAt a.offset with
    | none => .next (respond a 0 (raiseError .errAccess s))
    | some r => if a.write then writeReg r a.wdata (respond a 0 s) else .next (respond a (readReg r s) s)

/-- `MemRead(BASE + offset(reg), 4)`, as the block sees it (R9, R101). -/
def readAccess (r : Reg) : Access := ⟨r.offset, .four, false, 0⟩

/-- `MemWrite(BASE + offset(reg), 4, v)`, as the block sees it (R9, R101). -/
def writeAccess (r : Reg) (v : Word) : Access := ⟨r.offset, .four, true, v⟩

/-- The CMD write that presents the word c (R22). -/
def cmdAccess (c : Word) : Access := writeAccess .cmd c

/-- The platform's address decode (R71): the offset in the window of a byte address, none outside it, where an access never
reaches the block. -/
def windowOffset (addr : Nat) : Option (BitVec 8) :=
  if Config.base ≤ addr ∧ addr < Config.base + 0x100 then some (BitVec.ofNat 8 (addr - Config.base)) else none

/-- The byte address of a register, `BASE + offset(reg)` (R101). -/
def Reg.address (r : Reg) : Nat := Config.base + r.offset.toNat

end Sys2Proof.Machine
end

