-- ==== Sys2Proof/Machine/Engine.lean ====
section
/-! DEFINITION. The engine agent: the ROUND and FEED steps (spec/40_sha1_engine.md R116, R117, R119) and the step and cycle
counts of the commands (spec/70_reset_and_hazards.md R262, R265). -/

namespace Sys2Proof.Machine

/-- One ROUND step, round t (R116). It writes only the internal state. -/
def roundStep (s : State) : State :=
  let s' := { s with work := roundWork s.t.toNat s.w[0] s.work, w := rotateWindow s.w }
  if s.t = 79 then { s' with phase := .feed } else { s' with t := s.t + 1 }

/-- One FEED step (R117): the feed-forward, then the second padding block if PEND2 = 1, else IDLE and DONE. -/
def feedStep (s : State) : State :=
  let s' := { s with h := feedForward s.h s.work }
  if s.pend2 then startBlock (padBlock2 s.bitlen) { s' with pend2 := false }
  else setDone true { s' with phase := .idle }

/-- One engine step; in phase IDLE the engine has none (R50, R80). -/
def engineStep (s : State) : State :=
  match s.phase with
  | .idle => s
  | .round => roundStep s
  | .feed => feedStep s

/-- The engine steps from a command's acceptance to its completion (R119, R262); a single-step command needs none. -/
def engineStepsOf : Instr → Nat
  | .shaCompress => 81
  | .shaFinal n => if argCount n ≤ 55 then 81 else 162
  | .nop | .shaInit | .saveDigest | .msgFromDigest | .keyPad _ | .keyFromDigest => 0
  | .hmacIpad | .hmacOpad | .hotpTrunc | .zeroize => 0

/-- The cost estimate of R265, in clock cycles: no rule depends on it. -/
def engineCyclesOf (i : Instr) : Nat := engineStepsOf i * Config.roundStepCycles

end Sys2Proof.Machine
end

