-- ==== Sys2Proof/Machine/Turns.lean ====
section
/-! DEFINITION. The agents' turns: the engine, the host agent, the bus masters and the reset pin
(spec/20_memory.md R80, R85; spec/70_reset_and_hazards.md R250). -/

namespace Sys2Proof.Machine

/-- The engine's turn: its step, if it has one; none while `rst_n` is low (R80, R250). -/
def engineTurn (s : State) : State := if s.rstN then engineStep s else s

/-- The host goes on at line n of its program. -/
def hostGoto (n : Nat) (s : State) : State := { s with host := { s.host with pc := n } }

/-- The host's own branch of a BEQ, on the value its read returned (R102). -/
def hostBranch (mask value : Word) (target : Nat) (s : State) : State :=
  if s.rdata.getD 0 &&& mask = value then hostGoto target s else s

/-- The bus access a line of the host program makes (R101, R102). -/
def HostOp.access : HostOp → Access
  | .wr r v => writeAccess r v
  | .rd r => readAccess r
  | .beq r _ _ _ => readAccess r

/-- What the host does after the access of a line: only BEQ branches (R102). -/
def HostOp.after : HostOp → State → State
  | .wr _ _, s => s
  | .rd _, s => s
  | .beq _ mask value target, s => hostBranch mask value target s

/-- The host agent's turn: the one bus access of its next line (R80, R101); past its last line it makes none. -/
def hostTurn (s : State) : Host.Outcome State Fault Refusal :=
  match s.host.prog[s.host.pc]? with
  | none => .next s
  | some op =>
    match busAccess op.access (hostGoto (s.host.pc + 1) s) with
    | .next s' => .next (op.after s')
    | .fault f => .fault f
    | .refused f => .refused f

/-- `rst_n` is low (R250, R251): the whole block takes its reset state and nothing of it survives; the agents outside the
block keep theirs. -/
def holdInReset (s : State) : State := { State.reset with rstN := false, host := s.host, turns := s.turns }

/-- One agent's turn. -/
def takeTurn (t : Turn) (s : State) : Host.Outcome State Fault Refusal :=
  match t with
  | .host => hostTurn s
  | .bus a => busAccess a s
  | .engine => .next (engineTurn s)
  | .assertReset => .next (holdInReset s)
  | .releaseReset => .next { s with rstN := true }

/-- Whose turn comes next (R80; notes/assumptions/1.md): the first pending one; with none pending the engine while it is busy,
else the host. -/
def nextTurn (s : State) : Turn :=
  match s.turns with
  | t :: _ => t
  | [] => if s.busy then .engine else .host

/-- The state with the turn it is about to take removed from the pending ones. -/
def dropTurn (s : State) : State := { s with turns := s.turns.tail }

/-- The state with a CMD write of the word c as its next turn and `rst_n` released, so that the next step presents c. -/
def withCommand (c : Word) (s : State) : State := { s with turns := .bus (cmdAccess c) :: s.turns, rstN := true }

end Sys2Proof.Machine
end

