-- ==== Sys2Proof/Machine/Step.lean ====
section
/-! DEFINITION. One step of the whole machine: one turn of one agent (spec/20_memory.md R80), and the placing of a command
where the next step presents it (notes/assumptions/3.md). -/

namespace Sys2Proof.Machine

/-- One step: the next turn is taken (R80). -/
def step (s : State) : Host.Outcome State Fault Refusal := takeTurn (nextTurn s) (dropTurn s)

/-- The state whose next step presents the command word w (its low nbits bits, the bits above 0) to CMD. The block fetches
nothing (R54, R84): a command is the data word of a CMD write. -/
def State.withFetchWord (s : State) (nbits w : Nat) : State := withCommand (BitVec.ofNat 32 (w % 2 ^ nbits)) s

end Sys2Proof.Machine
end

