-- ==== Sys2Proof/Machine/HostNotation.lean ====
section
/-! DEFINITION. The host program notation (spec/30_encoding.md R100 to R104): its lines, their expansion into the primitives
WR and RD (and the host's own branch), and the resolution of labels. -/

namespace Sys2Proof.Machine

/-- A line of a host program (R100 to R104). -/
inductive HostLine where
  /-- `; text` (R100) -/
  | comment (text : String)
  /-- `label:` names the next line (R100) -/
  | label (name : String)
  /-- `WR reg, imm32` (R101) -/
  | wr (reg : Reg) (imm : Word)
  /-- `RD reg` (R101) -/
  | rd (reg : Reg)
  /-- `CMD MNEMONIC`, `CMD SHA_FINAL n`, `CMD KEY_PAD len` (R102) -/
  | cmd (i : Instr)
  /-- `W1C mask` (R102) -/
  | w1c (mask : Word)
  /-- `BEQ reg, mask, value, label` (R102) -/
  | beq (reg : Reg) (mask value : Word) (target : String)
  /-- `WAIT` (R103) -/
  | wait
  /-- `LDM b_0 ... b_{k-1}`, or the ASCII bytes of a text (R104) -/
  | ldm (bytes : List Byte)
  /-- `LDK b_0 ... b_{k-1}`, or the ASCII bytes of a text (R104) -/
  | ldk (bytes : List Byte)
  /-- `RDH` (R104) -/
  | rdh
  /-- `RDD` (R104) -/
  | rdd
  deriving DecidableEq, Repr

/-- Where a branch of the expanded text goes: a label, or a number of lines back (WAIT's own label). -/
inductive BranchTarget where
  | named (name : String)
  | back (lines : Nat)
  deriving DecidableEq, Repr

/-- An item of the expanded text: a label, or a line of one bus access. -/
inductive HostItem where
  | label (name : String)
  | wr (reg : Reg) (imm : Word)
  | rd (reg : Reg)
  | beq (reg : Reg) (mask value : Word) (target : BranchTarget)
  deriving DecidableEq, Repr

/-- `word_i` of LDM and LDK: four bytes big-endian, a byte past the end 0x00 (R104). -/
def loadWord (bytes : List Byte) (i : Nat) : Word :=
  packWord (bytes.getD (4 * i) 0) (bytes.getD (4 * i + 1) 0) (bytes.getD (4 * i + 2) 0) (bytes.getD (4 * i + 3) 0)

/-- `WR <buf><i>, word_i` for i = 0 .. ceil(k/4) - 1; the words past them are not written (R104). -/
def loadItems (buf : Fin 16 → Reg) (bytes : List Byte) : List HostItem :=
  ((List.finRange 16).filter (4 * ·.val < bytes.length)).map fun i => .wr (buf i) (loadWord bytes i)

/-- The expansion of a line (R101 to R104); none for an LDM or LDK of more than 64 bytes. -/
def HostLine.expand : HostLine → Option (List HostItem)
  | .comment _ => some []
  | .label name => some [.label name]
  | .wr reg imm => some [.wr reg imm]
  | .rd reg => some [.rd reg]
  | .cmd i => some [.wr .cmd (encode i)]
  | .w1c mask => some [.wr .status mask]
  | .beq reg mask value target => some [.beq reg mask value (.named target)]
  | .wait => some [.rd .status, .beq .status 1 1 (.back 1)]
  | .ldm bytes => if bytes.length ≤ 64 then some (loadItems .m bytes) else none
  | .ldk bytes => if bytes.length ≤ 64 then some (loadItems .k bytes) else none
  | .rdh => some ((List.finRange 5).map fun i => .rd (.h i))
  | .rdd => some ((List.finRange 5).map fun i => .rd (.d i))

/-- The index of the line a label names: the number of lines before the label (R100). DESIGN CHOICE (notes/assumptions/17.md):
a label after the last line, which names no line, is the index past the end, where the host makes no access. -/
def labelIndex (name : String) : List HostItem → Option Nat
  | [] => none
  | .label n :: rest => if n = name then some 0 else labelIndex name rest
  | .wr _ _ :: rest | .rd _ :: rest | .beq _ _ _ _ :: rest => (labelIndex name rest).map (· + 1)

/-- The lines of an expanded text, labels resolved in the whole text `all`; `at` is the index of the next line. -/
def resolveItems (all : List HostItem) (at' : Nat) : List HostItem → Option (List HostOp)
  | [] => some []
  | .label _ :: rest => resolveItems all at' rest
  | .wr reg imm :: rest => (resolveItems all (at' + 1) rest).map (.wr reg imm :: ·)
  | .rd reg :: rest => (resolveItems all (at' + 1) rest).map (.rd reg :: ·)
  | .beq reg mask value (.back n) :: rest =>
    (resolveItems all (at' + 1) rest).map (.beq reg mask value (at' - n) :: ·)
  | .beq reg mask value (.named name) :: rest => do
    let target ← labelIndex name all
    let ops ← resolveItems all (at' + 1) rest
    pure (.beq reg mask value target :: ops)

/-- The expanded text of a program, line by line. -/
def expandLines : List HostLine → Option (List HostItem)
  | [] => some []
  | line :: rest => do
    let items ← line.expand
    let more ← expandLines rest
    pure (items ++ more)

/-- A host program assembled; none if a load is too long or a branch names a label the program lacks. -/
def assemble (prog : List HostLine) : Option (List HostOp) := do
  let items ← expandLines prog
  resolveItems items 0 items

/-- The state with an assembled program given to the host agent, at its first line. -/
def withHostProgram (ops : List HostOp) (s : State) : State := { s with host := ⟨ops, 0⟩ }

/-- The ASCII bytes of a text (R104). DESIGN CHOICE (notes/assumptions/16.md): a character outside ASCII, which R104 does not
admit, gives its code point modulo 256. -/
def asciiBytes (text : String) : List Byte := text.toList.map fun c => BitVec.ofNat 8 c.toNat

end Sys2Proof.Machine
end

