-- ==== Sys2Proof/Machine/Procedures.lean ====
section
/-! DEFINITION. The host procedures the spec derives, in its own notation: boot (spec/70_reset_and_hazards.md R256), digest
(spec/40_sha1_engine.md R129), key normalisation and HMAC (spec/41_hmac_key.md R169, R170), counter and HOTP
(spec/42_hotp.md R185, R189). -/

namespace Sys2Proof.Machine

/-- Chunk number k of 64 bytes. -/
def chunk (bytes : List Byte) (k : Nat) : List Byte := (bytes.drop (64 * k)).take 64

/-- The bytes past the last full 64-byte chunk. -/
def lastBytes (bytes : List Byte) : List Byte := bytes.drop (64 * (bytes.length / 64))

/-- The boot sequence: read ID, clear stale flags, set INTEN (R256; a host that uses no `irq` writes 0, its reset value). -/
def bootLines (inten : Word) : List HostLine := [.rd .id, .w1c 0x7E, .wr .inten inten]

/-- `for each full 64-byte chunk: LDM chunk ; CMD SHA_COMPRESS ; WAIT` (R129). -/
def absorbLines (bytes : List Byte) : List HostLine :=
  (List.range (bytes.length / 64)).flatMap fun k => [.ldm (chunk bytes k), .cmd .shaCompress, .wait]

/-- `LDM (last bytes) ; CMD SHA_FINAL r ; WAIT` (R129). -/
def finishLines (bytes : List Byte) : List HostLine :=
  [.ldm (lastBytes bytes), .cmd (.shaFinal (BitVec.ofNat 7 (bytes.length % 64))), .wait]

/-- SHA-1 of a message (R129): the digest is left in H, and RDH reads it as `H0' || H1' || H2' || H3' || H4'`. -/
def digestLines (message : List Byte) : List HostLine :=
  [.cmd .shaInit] ++ absorbLines message ++ finishLines message ++ [.rdh]

/-- Key normalisation (R169): K = NK. A long key is hashed by the program of R129 as it stands. -/
def keyLines (key : List Byte) : List HostLine :=
  if key.length ≤ 64 then [.ldk key, .cmd (.keyPad (BitVec.ofNat 7 key.length))]
  else digestLines key ++ [.cmd .keyFromDigest]

/-- HMAC-SHA1 of a text under a key, the tag left in H and D (R170). -/
def hmacLines (key text : List Byte) : List HostLine :=
  keyLines key ++ [.cmd .shaInit, .cmd .hmacIpad, .cmd .shaCompress, .wait] ++ absorbLines text ++ finishLines text ++
    [.cmd .saveDigest, .cmd .shaInit, .cmd .hmacOpad, .cmd .shaCompress, .wait,
     .cmd .msgFromDigest, .cmd (.shaFinal 20), .wait, .cmd .saveDigest]

/-- A 64-bit counter as 8 bytes, most significant first (R185). -/
def counterBytes (c : BitVec 64) : List Byte := (List.range 8).map (lengthByte c)

/-- HOTP of a secret and a counter (R189): the text part writes M0 and M1 and issues SHA_FINAL 8. -/
def hotpLines (secret : List Byte) (counter : BitVec 64) : List HostLine :=
  hmacLines secret (counterBytes counter) ++ [.cmd .hotpTrunc, .rd .hotpCode, .rd .hotpBcd, .rd .status]

end Sys2Proof.Machine
end

