-- ==== Sys2Proof/Machine/Reference.lean ====
section
/-! DEFINITION. The functions the engine is specified by, apart from any machine: the 80-word schedule
(spec/40_sha1_engine.md R113), the compression function (R118), the padded message (R125, R126) and the normalized key
(spec/41_hmac_key.md R160). Statements compare the machine with them; the step does not call them. -/

namespace Sys2Proof.Machine

/-- The first 16 + n schedule words, the newest first: `W_t = ROTL_1(W_{t-3} ^ W_{t-8} ^ W_{t-14} ^ W_{t-16})` (R113). -/
def scheduleNewestFirst (blk : Words16) : Nat → List Word
  | 0 => blk.toList.reverse
  | n + 1 =>
    let ws := scheduleNewestFirst blk n
    rotl 1 (ws.getD 2 0 ^^^ ws.getD 7 0 ^^^ ws.getD 13 0 ^^^ ws.getD 15 0) :: ws

/-- The schedule word W_t of a block (R113); past W_79 the words the window goes on computing (D30). -/
def scheduleWord (blk : Words16) (t : Nat) : Word := (scheduleNewestFirst blk t).getD 15 0

/-- The working registers after rounds 0 .. n-1 over the schedule of a block, from the chaining value h (R116, R118). -/
def workAfter (h : Words5) (blk : Words16) : Nat → Work
  | 0 => workOf h
  | n + 1 => roundWork n (scheduleWord blk n) (workAfter h blk n)

/-- `Compress(H, blk)_i = H_i + V_i`, V the working registers after 80 rounds (R118). -/
def compress (h : Words5) (blk : Words16) : Words5 := feedForward h (workAfter h blk 80)

/-- The number of zero bytes between 0x80 and the length field: the fewest that bring the length to 56 modulo 64 (R125). -/
def zeroPadding (length : Nat) : Nat := (119 - length % 64) % 64

/-- The padded message: the message, a single 1 bit, 0 bits to 448 modulo 512, the 64-bit big-endian bit length (R125). -/
def paddedMessage (message : List Byte) : List Byte :=
  message ++ [0x80] ++ List.replicate (zeroPadding message.length) 0x00 ++
    (List.range 8).map (lengthByte (BitVec.ofNat 64 (8 * message.length)))

/-- Block number q of a padded message, as sixteen words (R114). -/
def blockAt (bytes : List Byte) (q : Nat) : Words16 := blockOfBytes fun j => bytes.getD (64 * q + j) 0

/-- Byte j of the normalized key of a key of at most 64 bytes, or of the digest that replaces a longer one: right-padded
with zeros (R160). -/
def normalizedKeyByte (key : List Byte) (j : Nat) : Byte := key.getD j 0

end Sys2Proof.Machine
end

