-- ==== Sys2Proof/Safety.lean ====
section
/-! DEFINITION. The terms claims are stated in: what an agent's turn accesses, what is observable, the invariant of the
machine, a trustworthy run, and the frame of a command. -/

namespace Sys2Proof.Machine

/-- The bus access the next turn makes, if it makes one (spec/20_memory.md R80). -/
def nextAccess (s : State) : Option Access :=
  match nextTurn s with
  | .host => (s.host.prog[s.host.pc]?).map HostOp.access
  | .bus a => some a
  | .engine | .assertReset | .releaseReset => none

/-- The next turn is an admitted write of v to the register r while `rst_n` is high (R73, R101). -/
def nextWrites (r : Reg) (v : Word) (s : State) : Prop :=
  s.rstN = true ∧ ∃ a, nextAccess s = some a ∧ a.admitted = true ∧ a.write = true ∧ regAt a.offset = some r ∧ a.wdata = v

/-- The outputs of the block: `bus_rdata` of the last access and `irq` (R70; spec/60_exceptions.md R227). -/
def State.outputs (s : State) : Option Word × Bool := (s.rdata, s.irq)

/-- The outputs after each of the first n steps. -/
def outputsOver : Nat → State → List (Option Word × Bool)
  | 0, _ => []
  | n + 1, s =>
    match step s with
    | .next t => t.outputs :: outputsOver n t
    | .fault _ => []
    | .refused _ => []

/-- n engine steps (spec/40_sha1_engine.md R119). -/
def engineSteps : Nat → State → State
  | 0, s => s
  | n + 1, s => engineSteps n (engineStep s)

/-- The engine steps a block still needs before BUSY returns to 0 (R119, R262). -/
def engineStepsLeft (s : State) : Nat :=
  match s.phase with
  | .idle => 0
  | .round => 81 - s.t.toNat + (if s.pend2 then 81 else 0)
  | .feed => 1 + (if s.pend2 then 81 else 0)

/-- A host program's results are trustworthy only if ERR_ANY = 0 (R215). -/
def State.trustworthy (s : State) : Bool := !s.errAny

/-- The value each register reads after reset (spec/70_reset_and_hazards.md R251). -/
def resetValue : Reg → Word
  | .id => 0x53484131
  | .cmd | .status | .inten | .mlen | .h _ | .m _ | .k _ | .d _ => 0
  | .hotpOffset | .hotpTrunc | .hotpCode | .hotpBcd => 0

/-- What every step keeps, from reset on. -/
structure State.Inv (s : State) : Prop where
  /-- `t ∈ [0, 79]` wherever it is read (R50). -/
  round_index : s.phase ≠ .idle → s.t.toNat ≤ 79
  /-- FEED comes after round 79 (R116, R119). -/
  feed_after_last_round : s.phase = .feed → s.t.toNat = 79
  /-- While a command runs, DONE = 0 (R218). -/
  busy_not_done : s.phase ≠ .idle → s.status.done = false
  /-- A second padding block is pending only while the engine runs (R51, R117). -/
  idle_not_pending : s.phase = .idle → s.pend2 = false
  /-- BITLEN is the bit length of the MLEN bytes absorbed (R51, R124). -/
  pending_length : s.pend2 = true → s.bitlen = s.mlen.setWidth 64 * 8
  /-- HOTP_CODE is HOTP_TRUNC mod 10^6 (R39), so at most 999999. -/
  code_of_trunc : s.hotp.code.toNat = s.hotp.trunc.toNat % 1000000
  /-- DIGk of HOTP_BCD is the decimal digit k of HOTP_CODE, most significant first (R40). -/
  digits_of_code : ∀ k, k < 6 →
    (s.hotp.bcd.extractLsb' (20 - 4 * k) 4).toNat = s.hotp.code.toNat / 10 ^ (5 - k) % 10
  /-- While `rst_n` is low every register reads its reset value and the sequencer is IDLE (R250). -/
  held_in_reset : s.rstN = false → s.phase = .idle ∧ ∀ r, readReg r s = resetValue r

/-- Every register but those named reads in t as it did in s, and so do the internal state, the pin, the read port and the
agents outside the block. STATUS is always among the named ones where a command completes: its bits are stated apart. -/
structure FrameExcept (changed : Reg → Prop) (s t : State) : Prop where
  registers : ∀ r, ¬ changed r → readReg r t = readReg r s
  sequencer : t.phase = s.phase ∧ t.t = s.t ∧ t.pend2 = s.pend2 ∧ t.bitlen = s.bitlen
  working : t.work = s.work ∧ t.w = s.w
  outside : t.rstN = s.rstN ∧ t.rdata = s.rdata ∧ t.host = s.host ∧ t.turns = s.turns

/-- "ERR_BUSY if BUSY = 1", and nothing else changes (spec/60_exceptions.md R210). -/
def RejectedWhileBusy (i : Instr) : Prop :=
  ∀ s : State, s.phase ≠ .idle → exec i s = .next { s with status := { s.status with errBusy := true } }

/-- An idle block refuses the word c with ERR_OPCODE and changes nothing else (R93, R210). -/
def RejectedAsOpcode (c : Word) : Prop :=
  ∀ s : State, s.phase = .idle → writeCmd c s = .next { s with status := { s.status with errOpcode := true } }

/-- "Encoding: OP, word" and "ERR_OPCODE if ARG != 0 or RSV != 0", for a command without an argument: the word decodes to
it, and every other word with its OP is refused. -/
def OnlyEncoding (i : Instr) (word : Word) : Prop :=
  decode word = .ok i ∧ ∀ c, opField c = opField word → argField c ≠ 0 ∨ rsvField c ≠ 0 → RejectedAsOpcode c

/-- An accepted single-step command answers a next state in which DONE is set and no other STATUS bit differs, only the
named registers differ, and the effect holds between the two states (R210, R218). -/
def CompletesInItsStep (i : Instr) (changed : Reg → Prop) (effect : State → State → Prop) : Prop :=
  ∀ s : State, s.phase = .idle → ∃ t, exec i s = .next t ∧ t.status = { s.status with done := true } ∧
    FrameExcept (fun r => changed r ∨ r = .status) s t ∧ effect s t

end Sys2Proof.Machine
end

