-- ==== Sys2Proof/Certificates/Slice0/Obligations.lean ====
section
/-! DEFINITION. The statements for the provers. Each says which rule of the spec it formalises. -/

open Sys2Proof Sys2Proof.Machine

/-! Encoding (spec/30_encoding.md) -/

/-- R90 to R92: every command, with every value of its 7-bit argument, is what its own word decodes to. -/
def Obligations.DecodeOfEncodeIsTheCommand : Prop := ∀ i : Instr, decode (encode i) = .ok i

/-- R90 to R93: a word that decodes is the encoding of the command it decodes to, so each word has one meaning and no bit of it
is ignored. -/
def Obligations.DecodedWordIsItsEncoding : Prop := ∀ (c : Word) (i : Instr), decode c = .ok i → encode i = c

/-- R92: no word matches two rows of the opcode map. -/
def Obligations.OpcodeRowsAreDisjoint : Prop :=
  ∀ r₁ ∈ opcodeMap, ∀ r₂ ∈ opcodeMap, ∀ c : Word, r₁.matches c = true → r₂.matches c = true → r₁ = r₂

/-- R93: a word fails to match exactly when OP is none of the twelve values, RSV is not 0, or ARG is not 0 for an opcode
whose ARG must be 0; an idle block then sets ERR_OPCODE and changes nothing else. -/
def Obligations.WordFailsToMatchExactlyWhen : Prop :=
  ∀ c : Word,
    ((∃ e, decode c = .error e) ↔
      opField c ∉ [0x00#8, 0x01, 0x02, 0x03, 0x04, 0x05, 0x10, 0x11, 0x12, 0x13, 0x20, 0x30] ∨ rsvField c ≠ 0 ∨
        (argField c ≠ 0 ∧ opField c ≠ 0x03 ∧ opField c ≠ 0x10)) ∧
    ∀ s : State, s.phase = .idle → (∃ e, decode c = .error e) →
      writeCmd c s = .next { s with status := { s.status with errOpcode := true } }

/-- R92: the words written out in the spec decode to the commands they stand for. -/
def Obligations.WordsOfTheSpecDecode : Prop :=
  decode 0x00000000 = .ok .nop ∧ decode 0x00000001 = .ok .shaInit ∧ decode 0x00000303 = .ok (.shaFinal 3) ∧
    decode 0x00001403 = .ok (.shaFinal 20) ∧ decode 0x00001410 = .ok (.keyPad 20) ∧ decode 0x00000020 = .ok .hotpTrunc ∧
    decode 0x00000030 = .ok .zeroize ∧ decode 0x00000100 = .error .argumentNotZero ∧
    decode 0x00008001 = .error .reservedBitsSet ∧ decode 0x00000006 = .error .unknownOpcode

/-! The step (spec/20_memory.md R80, R84) -/

/-- R22, R80, R84: a CMD write of a word that decodes to i runs exec i, at the state with the turn taken and nothing on the
read port; so it does for the host's own program line (whose position moves on) and where withFetchWord places it. -/
def Obligations.StepRunsTheDecodedCommand : Prop :=
  ∀ (s : State) (c : Word) (i : Instr) (rest : List Turn), decode c = .ok i →
    (s.rstN = true → step { s with turns := .bus (cmdAccess c) :: rest } = exec i { s with turns := rest, rdata := none }) ∧
    (s.rstN = true → s.host.prog[s.host.pc]? = some (.wr .cmd c) →
      step { s with turns := .host :: rest } =
        exec i { s with turns := rest, rdata := none, host := { s.host with pc := s.host.pc + 1 } }) ∧
    step (s.withFetchWord 32 c.toNat) = exec i { s with rstN := true, rdata := none }

/-- R80: on its turn a busy engine takes its step, whatever else is pending, and so it does when nothing is pending; an idle
engine has none (R50, R230). -/
def Obligations.EngineTakesItsStep : Prop :=
  ∀ (s : State) (rest : List Turn), s.rstN = true →
    step { s with turns := .engine :: rest } = .next (engineStep { s with turns := rest }) ∧
    (s.phase ≠ .idle → step { s with turns := [] } = .next (engineStep { s with turns := [] })) ∧
    (s.phase = .idle → engineStep s = s)

/-- R70, R216: the block never signals a bus error and has no traps; every step answers a next state. -/
def Obligations.EveryStepAnswersNext : Prop := ∀ s : State, ∃ t, step s = .next t

/-! Acceptance and errors (spec/60_exceptions.md) -/

/-- R210, R218: every command with its argument in range, presented to an idle block, completes or starts the engine:
SHA_COMPRESS and SHA_FINAL leave phase ROUND and DONE 0, every other command leaves IDLE and DONE 1; no error bit but
LEN_OVF differs. -/
def Obligations.EveryAcceptedCommandAnswersNext : Prop :=
  ∀ (i : Instr) (s : State), i.wf = true → s.phase = .idle →
    ∃ t, exec i s = .next t ∧
      (match i with
        | .shaCompress | .shaFinal _ => t.phase = .round ∧ t.status.done = false
        | _ => t.phase = .idle ∧ t.status.done = true) ∧
      t.status.errBusy = s.status.errBusy ∧ t.status.errOpcode = s.status.errOpcode ∧
      t.status.errArg = s.status.errArg ∧ t.status.errAccess = s.status.errAccess

/-- R211: only the first reason to reject is reported: BUSY, then encoding, then argument; a refused bus access reports only
ERR_ACCESS. -/
def Obligations.OnlyTheFirstRejectionIsReported : Prop :=
  (∀ (s : State) (c : Word), s.phase ≠ .idle →
    writeCmd c s = .next { s with status := { s.status with errBusy := true } }) ∧
  (∀ (s : State) (c : Word) (e : DecodeError), s.phase = .idle → decode c = .error e →
    writeCmd c s = .next { s with status := { s.status with errOpcode := true } }) ∧
  (∀ (s : State) (c : Word) (i : Instr), s.phase = .idle → decode c = .ok i → i.wf = false →
    writeCmd c s = .next { s with status := { s.status with errArg := true } }) ∧
  (∀ (s : State) (a : Access), s.rstN = true → a.size ≠ .four ∨ a.offset.toNat % 4 ≠ 0 →
    ∃ t, busAccess a s = .next t ∧ t.status = { s.status with errAccess := true })

/-- R94: a matched SHA_FINAL with n > 63 or KEY_PAD with len > 64 sets ERR_ARG and changes nothing else; KEY_PAD 64 is
accepted and leaves K unchanged. -/
def Obligations.ArgumentOutOfRangeSetsErrArg : Prop :=
  (∀ (s : State) (n : BitVec 7), s.phase = .idle → 63 < n.toNat →
    writeCmd (0x00000003 ||| (n.setWidth 32 <<< 8)) s = .next { s with status := { s.status with errArg := true } }) ∧
  (∀ (s : State) (len : BitVec 7), s.phase = .idle → 64 < len.toNat →
    writeCmd (0x00000010 ||| (len.setWidth 32 <<< 8)) s = .next { s with status := { s.status with errArg := true } }) ∧
  (∀ s : State, s.phase = .idle → ∃ t, writeCmd 0x00004010 s = .next t ∧ t.k = s.k ∧ t.status = { s.status with done := true })

/-- R26, R214, R217: an error bit that is set stays set in every step but a W1C write that names it and a reset. -/
def Obligations.ErrorBitsAreSticky : Prop :=
  ∀ s t : State, step s = .next t →
    nextTurn s = .assertReset ∨
    ((s.status.errBusy = true → t.status.errBusy = true ∨ ∃ v, nextWrites .status v s ∧ v.getLsbD 2 = true) ∧
     (s.status.errOpcode = true → t.status.errOpcode = true ∨ ∃ v, nextWrites .status v s ∧ v.getLsbD 3 = true) ∧
     (s.status.errArg = true → t.status.errArg = true ∨ ∃ v, nextWrites .status v s ∧ v.getLsbD 4 = true) ∧
     (s.status.errAccess = true → t.status.errAccess = true ∨ ∃ v, nextWrites .status v s ∧ v.getLsbD 5 = true) ∧
     (s.status.lenOvf = true → t.status.lenOvf = true ∨ ∃ v, nextWrites .status v s ∧ v.getLsbD 6 = true))

/-- R221, for the bits STATUS[6:1] (notes/assumptions/9.md: BUSY is counted apart, since an accepted SHA_COMPRESS that wraps
MLEN sets BUSY and LEN_OVF together, R121): at most one bit goes from 0 to 1 in a step. -/
def Obligations.AtMostOneEventBitPerStep : Prop :=
  ∀ s t : State, step s = .next t → ∀ i j : Nat, 1 ≤ i → i ≤ 6 → 1 ≤ j → j ≤ 6 →
    s.statusWord.getLsbD i = false → t.statusWord.getLsbD i = true →
    s.statusWord.getLsbD j = false → t.statusWord.getLsbD j = true → i = j

/-- R220: `irq = (STATUS.DONE & INTEN.DONE_IE) | (ERR_ANY & INTEN.ERR_IE)`, with ERR_ANY = (STATUS[6:2] != 0), read off the
register words. -/
def Obligations.InterruptLineFollowsStatus : Prop :=
  ∀ s : State, s.irq =
    (((readReg .status s).getLsbD 1 && (readReg .inten s).getLsbD 0) ||
      ((readReg .status s).extractLsb' 2 5 != 0 && (readReg .inten s).getLsbD 1))

/-- R24: BUSY is phase != IDLE; an accepted SHA_COMPRESS or SHA_FINAL raises it and no other step does; the engine step that
finishes the last block lowers it, and no other step but reset does. -/
def Obligations.BusyRisesAndFallsAsStated : Prop :=
  State.reset.busy = false ∧
  (∀ s : State, (readReg .status s).getLsbD 0 = true ↔ s.phase ≠ .idle) ∧
  (∀ (s : State) (i : Instr), s.phase = .idle → i = .shaCompress ∨ (∃ n : BitVec 7, n.toNat ≤ 63 ∧ i = .shaFinal n) →
    ∃ t, exec i s = .next t ∧ t.phase ≠ .idle) ∧
  (∀ s : State, s.phase = .feed → s.pend2 = false → (engineStep s).phase = .idle) ∧
  ∀ s t : State, step s = .next t →
    (s.phase = .idle → t.phase ≠ .idle →
      ∃ c, nextWrites .cmd c s ∧ (decode c = .ok .shaCompress ∨ ∃ n : BitVec 7, n.toNat ≤ 63 ∧ decode c = .ok (.shaFinal n))) ∧
    (s.phase ≠ .idle → t.phase = .idle →
      (nextTurn s = .engine ∧ s.phase = .feed ∧ s.pend2 = false) ∨ nextTurn s = .assertReset)

/-! The commands -/

/-- R200: NOP changes no register but DONE. -/
def Obligations.NopRule : Prop :=
  RejectedWhileBusy .nop ∧ OnlyEncoding .nop 0x00000000 ∧ CompletesInItsStep .nop (fun _ => False) (fun _ _ => True)

/-- R201: ZEROIZE makes every data register read 0 and clears A..E, W, BITLEN and PEND2; the error bits, LEN_OVF, INTEN and
the agents outside the block are unchanged. -/
def Obligations.ZeroizeRule : Prop :=
  RejectedWhileBusy .zeroize ∧ OnlyEncoding .zeroize 0x00000030 ∧
  ∀ s : State, s.phase = .idle → ∃ t, exec .zeroize s = .next t ∧
    t.status = { s.status with done := true } ∧ t.inten = s.inten ∧
    (∀ r, r ≠ .id → r ≠ .status → r ≠ .inten → readReg r t = 0) ∧
    t.work = ⟨0, 0, 0, 0, 0⟩ ∧ (∀ i : Fin 16, t.w[i] = 0) ∧ t.bitlen = 0 ∧ t.pend2 = false ∧ t.phase = .idle ∧
    t.t = s.t ∧
    t.rstN = s.rstN ∧ t.rdata = s.rdata ∧ t.host = s.host ∧ t.turns = s.turns

/-- R110, R120: SHA_INIT loads the initial chaining value and MLEN = 0; M, K and D are not touched, LEN_OVF is not cleared;
repeating it gives the same state. -/
def Obligations.ShaInitRule : Prop :=
  RejectedWhileBusy .shaInit ∧ OnlyEncoding .shaInit 0x00000001 ∧
  CompletesInItsStep .shaInit (fun r => r = .mlen ∨ ∃ i, r = .h i) (fun _ t =>
    readReg (.h 0) t = 0x67452301 ∧ readReg (.h 1) t = 0xEFCDAB89 ∧ readReg (.h 2) t = 0x98BADCFE ∧
    readReg (.h 3) t = 0x10325476 ∧ readReg (.h 4) t = 0xC3D2E1F0 ∧ readReg .mlen t = 0 ∧ exec .shaInit t = .next t)

/-- R127: SAVE_DIGEST copies H into D and changes nothing else but DONE. -/
def Obligations.SaveDigestRule : Prop :=
  RejectedWhileBusy .saveDigest ∧ OnlyEncoding .saveDigest 0x00000004 ∧
  CompletesInItsStep .saveDigest (fun r => ∃ i, r = .d i) (fun s t => ∀ i, readReg (.d i) t = readReg (.h i) s)

/-- R128: MSG_FROM_DIGEST copies D into M0..M4; M5..M15 are unchanged (the frame covers them). -/
def Obligations.MsgFromDigestRule : Prop :=
  RejectedWhileBusy .msgFromDigest ∧ OnlyEncoding .msgFromDigest 0x00000005 ∧
  CompletesInItsStep .msgFromDigest (fun r => ∃ i : Fin 16, i.val < 5 ∧ r = .m i)
    (fun s t => ∀ i : Fin 5, readReg (.m (i.castLE (by decide))) t = readReg (.d i) s)

/-- R162: KEY_FROM_DIGEST sets K0..K4 to H and K5..K15 to 0; H is not changed (the frame). -/
def Obligations.KeyFromDigestRule : Prop :=
  RejectedWhileBusy .keyFromDigest ∧ OnlyEncoding .keyFromDigest 0x00000011 ∧
  CompletesInItsStep .keyFromDigest (fun r => ∃ i, r = .k i) (fun s t =>
    (∀ i : Fin 5, readReg (.k (i.castLE (by decide))) t = readReg (.h i) s) ∧
    ∀ i : Fin 16, 5 ≤ i.val → readReg (.k i) t = 0)

/-- R163, R164: HMAC_IPAD sets every word of M to the word of K xor 0x36363636; K is not changed (the frame). -/
def Obligations.HmacIpadRule : Prop :=
  RejectedWhileBusy .hmacIpad ∧ OnlyEncoding .hmacIpad 0x00000012 ∧
  CompletesInItsStep .hmacIpad (fun r => ∃ i, r = .m i) (fun s t => ∀ i, readReg (.m i) t = readReg (.k i) s ^^^ 0x36363636)

/-- R163, R165: HMAC_OPAD sets every word of M to the word of K xor 0x5C5C5C5C; K is not changed (the frame). -/
def Obligations.HmacOpadRule : Prop :=
  RejectedWhileBusy .hmacOpad ∧ OnlyEncoding .hmacOpad 0x00000013 ∧
  CompletesInItsStep .hmacOpad (fun r => ∃ i, r = .m i) (fun s t => ∀ i, readReg (.m i) t = readReg (.k i) s ^^^ 0x5C5C5C5C)

/-- R161: KEY_PAD len, len <= 64, zeroes byte len and every later byte of K and keeps the bytes before; len > 64 is ERR_ARG,
RSV != 0 is ERR_OPCODE, BUSY is ERR_BUSY. -/
def Obligations.KeyPadRule : Prop :=
  (∀ len, RejectedWhileBusy (.keyPad len)) ∧
  (∀ len : BitVec 7, decode (0x00000010 ||| (len.setWidth 32 <<< 8)) = .ok (.keyPad len)) ∧
  (∀ c, opField c = 0x10 → rsvField c ≠ 0 → RejectedAsOpcode c) ∧
  (∀ (len : BitVec 7) (s : State), s.phase = .idle → 64 < len.toNat →
    exec (.keyPad len) s = .next { s with status := { s.status with errArg := true } }) ∧
  ∀ len : BitVec 7, len.toNat ≤ 64 → CompletesInItsStep (.keyPad len) (fun r => ∃ i, r = .k i) (fun s t =>
    ∀ j, j < 64 → byteOf t.k j = if j < len.toNat then byteOf s.k j else 0)

/-- R180 to R182: HOTP_TRUNC. offset is D4[3:0]; P is the 32-bit window of D0 || D1 || D2 || D3 || D4 at that byte offset, its
top bit cleared (the word form of R180, and the byte form below it); code is P mod 1000000; the digits are packed most
significant first. -/
def Obligations.HotpTruncRule : Prop :=
  RejectedWhileBusy .hotpTrunc ∧ OnlyEncoding .hotpTrunc 0x00000020 ∧
  CompletesInItsStep .hotpTrunc (fun r => r = .hotpOffset ∨ r = .hotpTrunc ∨ r = .hotpCode ∨ r = .hotpBcd) (fun s t =>
    let mac : BitVec 160 := s.d[0] ++ s.d[1] ++ s.d[2] ++ s.d[3] ++ s.d[4]
    let offset := s.d[4].toNat % 16
    let p := (mac.toNat >>> (128 - 8 * offset)) % 2 ^ 31
    let code := p % 1000000
    (readReg .hotpOffset t).toNat = offset ∧ (readReg .hotpTrunc t).toNat = p ∧
    (readReg .hotpTrunc t).toNat =
      (byteOf s.d offset ++ byteOf s.d (offset + 1) ++ byteOf s.d (offset + 2) ++ byteOf s.d (offset + 3) : BitVec 32).toNat %
        2 ^ 31 ∧
    (readReg .hotpCode t).toNat = code ∧
    (readReg .hotpBcd t).toNat =
      (code / 100000 % 10) * 2 ^ 20 + (code / 10000 % 10) * 2 ^ 16 + (code / 1000 % 10) * 2 ^ 12 +
        (code / 100 % 10) * 2 ^ 8 + (code / 10 % 10) * 2 ^ 4 + code % 10)

/-- R190: every HOTP_TRUNC leaves HOTP_CODE <= 999999, HOTP_OFFSET <= 15, HOTP_TRUNC < 2^31, and the results are a function of
D alone. -/
def Obligations.HotpResultsInRangeAndOfDAlone : Prop :=
  ∀ s : State, s.phase = .idle → ∃ t, exec .hotpTrunc s = .next t ∧
    (readReg .hotpCode t).toNat ≤ 999999 ∧ (readReg .hotpOffset t).toNat ≤ 15 ∧ (readReg .hotpTrunc t).toNat < 2 ^ 31 ∧
    ∀ s' t' : State, s'.phase = .idle → s'.d = s.d → exec .hotpTrunc s' = .next t' →
      readReg .hotpOffset t' = readReg .hotpOffset t ∧ readReg .hotpTrunc t' = readReg .hotpTrunc t ∧
      readReg .hotpCode t' = readReg .hotpCode t ∧ readReg .hotpBcd t' = readReg .hotpBcd t

/-- R118, R121, R262: SHA_COMPRESS counts 64 bytes (LEN_OVF when MLEN + 64 passes 2^32 - 1) and starts the block of M; exactly
81 engine steps later it is done, H is Compress(H, M), and no other register differs; until then BUSY = 1, H is the old
chaining value and DONE = 0. -/
def Obligations.ShaCompressRule : Prop :=
  RejectedWhileBusy .shaCompress ∧ OnlyEncoding .shaCompress 0x00000002 ∧
  ∀ s : State, s.phase = .idle → ∃ t, exec .shaCompress s = .next t ∧
    t.mlen.toNat = (s.mlen.toNat + 64) % 2 ^ 32 ∧
    t.status = { s.status with done := false, lenOvf := s.status.lenOvf || decide (2 ^ 32 ≤ s.mlen.toNat + 64) } ∧
    (∀ r, r ≠ .mlen → r ≠ .status → readReg r t = readReg r s) ∧
    (∀ n, n < 81 → (engineSteps n t).phase ≠ .idle ∧ (engineSteps n t).h = s.h ∧ (engineSteps n t).status.done = false) ∧
    (engineSteps 81 t).phase = .idle ∧ (engineSteps 81 t).h = compress s.h s.m ∧
    (engineSteps 81 t).status = { t.status with done := true } ∧
    (∀ r, r ≠ .status → (∀ i, r ≠ .h i) → readReg r (engineSteps 81 t) = readReg r t) ∧
    (engineSteps 81 t).rstN = s.rstN ∧ (engineSteps 81 t).rdata = s.rdata ∧
    (engineSteps 81 t).host = s.host ∧ (engineSteps 81 t).turns = s.turns

/-- R124, R126, R262: SHA_FINAL n, n <= 63, counts n bytes and compresses the padded last block: one block in 81 engine steps
for n <= 55, two in 162 for n >= 56; exactly then DONE is set. No register but MLEN, STATUS and H differs. -/
def Obligations.ShaFinalRule : Prop :=
  (∀ n, RejectedWhileBusy (.shaFinal n)) ∧
  (∀ n : BitVec 7, decode (0x00000003 ||| (n.setWidth 32 <<< 8)) = .ok (.shaFinal n)) ∧
  (∀ c, opField c = 0x03 → rsvField c ≠ 0 → RejectedAsOpcode c) ∧
  (∀ (n : BitVec 7) (s : State), s.phase = .idle → 63 < n.toNat →
    exec (.shaFinal n) s = .next { s with status := { s.status with errArg := true } }) ∧
  ∀ (n : BitVec 7) (s : State), s.phase = .idle → n.toNat ≤ 63 → ∃ t, exec (.shaFinal n) s = .next t ∧
    let len := (s.mlen.toNat + n.toNat) % 2 ^ 32
    let bl := BitVec.ofNat 64 (8 * len)
    let steps := if n.toNat ≤ 55 then 81 else 162
    let first := compress s.h (padBlock1 s.m n.toNat bl)
    t.mlen.toNat = len ∧
    t.status = { s.status with done := false, lenOvf := s.status.lenOvf || decide (2 ^ 32 ≤ s.mlen.toNat + n.toNat) } ∧
    (∀ r, r ≠ .mlen → r ≠ .status → readReg r t = readReg r s) ∧
    (∀ k, k < steps → (engineSteps k t).phase ≠ .idle ∧ (engineSteps k t).status.done = false) ∧
    (engineSteps steps t).phase = .idle ∧
    (engineSteps steps t).h = (if n.toNat ≤ 55 then first else compress first (padBlock2 bl)) ∧
    (engineSteps steps t).status = { t.status with done := true } ∧
    (∀ r, r ≠ .status → (∀ i, r ≠ .h i) → readReg r (engineSteps steps t) = readReg r t) ∧
    (engineSteps steps t).rstN = s.rstN ∧ (engineSteps steps t).rdata = s.rdata ∧
    (engineSteps steps t).host = s.host ∧ (engineSteps steps t).turns = s.turns

/-- R125, R126: with the last L mod 64 bytes of a message of L < 2^32 bytes in M, the one or two blocks SHA_FINAL makes are the
last blocks of the padded message, whose length is a positive multiple of 64 bytes. -/
def Obligations.PaddingIsThePaddedMessage : Prop :=
  ∀ (message : List Byte) (m : Words16), message.length < 2 ^ 32 →
    (∀ j, j < message.length % 64 → byteOf m j = message.getD (64 * (message.length / 64) + j) 0) →
    let q := message.length / 64
    let n := message.length % 64
    let bl := BitVec.ofNat 64 (8 * message.length)
    (paddedMessage message).length = 64 * (q + (if n ≤ 55 then 1 else 2)) ∧
    padBlock1 m n bl = blockAt (paddedMessage message) q ∧
    (56 ≤ n → padBlock2 bl = blockAt (paddedMessage message) (q + 1))

/-- R124, R171: bytes n..63 of M do not matter to SHA_FINAL n: two idle states that differ only in them give states that differ
only in M. -/
def Obligations.ShaFinalIgnoresBytesPastN : Prop :=
  ∀ (s : State) (m' : Words16) (n : BitVec 7), s.phase = .idle → n.toNat ≤ 63 →
    (∀ j, j < n.toNat → byteOf m' j = byteOf s.m j) →
    ∃ t, exec (.shaFinal n) s = .next t ∧ exec (.shaFinal n) { s with m := m' } = .next { t with m := m' }

/-- R172: KEY_FROM_DIGEST leaves the same K as KEY_PAD 20 on any K whose first 20 bytes are the digest in H. -/
def Obligations.LongKeyEqualsItsDigestAsKey : Prop :=
  ∀ s s' : State, s.phase = .idle → s'.phase = .idle →
    (∀ i : Fin 5, readReg (.k (i.castLE (by decide))) s' = readReg (.h i) s) →
    ∃ t t', exec .keyFromDigest s = .next t ∧ exec (.keyPad 20) s' = .next t' ∧ t.k = t'.k

/-- R160, R161, R169: a key of L <= 64 bytes in the first L bytes of K, whatever stands after them, is normalized by
KEY_PAD L. -/
def Obligations.KeyPadNormalizesTheKey : Prop :=
  ∀ (key : List Byte) (s : State), key.length ≤ 64 → s.phase = .idle →
    (∀ j, j < key.length → byteOf s.k j = key.getD j 0) →
    ∃ t, exec (.keyPad (BitVec.ofNat 7 key.length)) s = .next t ∧ ∀ j, j < 64 → byteOf t.k j = normalizedKeyByte key j

/-! The engine (spec/40_sha1_engine.md) -/

/-- R111, R112, R116: one ROUND step. -/
def Obligations.RoundStepRule : Prop :=
  ∀ s : State, s.phase = .round →
    let w := s.w[0]
    let k : Word := if s.t.toNat ≤ 19 then 0x5A827999 else if s.t.toNat ≤ 39 then 0x6ED9EBA1
      else if s.t.toNat ≤ 59 then 0x8F1BBCDC else 0xCA62C1D6
    let f : Word := if s.t.toNat ≤ 19 then (s.work.b &&& s.work.c) ||| (~~~s.work.b &&& s.work.dw)
      else if 40 ≤ s.t.toNat ∧ s.t.toNat ≤ 59 then
        (s.work.b &&& s.work.c) ||| (s.work.b &&& s.work.dw) ||| (s.work.c &&& s.work.dw)
      else s.work.b ^^^ s.work.c ^^^ s.work.dw
    let t := engineStep s
    t.work = ⟨s.work.a.rotateLeft 5 + f + s.work.e + k + w, s.work.a, s.work.b.rotateLeft 30, s.work.c, s.work.dw⟩ ∧
    (∀ i : Fin 16, i.val < 15 → t.w[i] = s.w[i.val + 1]?.getD 0) ∧
    t.w[15] = (s.w[13] ^^^ s.w[8] ^^^ s.w[2] ^^^ s.w[0]).rotateLeft 1 ∧
    (s.t = 79 → t.phase = .feed ∧ t.t = s.t) ∧ (s.t ≠ 79 → t.phase = .round ∧ t.t.toNat = (s.t.toNat + 1) % 128) ∧
    (∀ r, readReg r t = readReg r s) ∧
    t.pend2 = s.pend2 ∧ t.bitlen = s.bitlen ∧ t.rstN = s.rstN ∧ t.rdata = s.rdata ∧ t.host = s.host ∧ t.turns = s.turns

/-- R117: one FEED step: the feed-forward is addition modulo 2^32; with PEND2 the second block starts from the new H, else the
phase is IDLE and DONE is set. No register but H and STATUS differs. -/
def Obligations.FeedStepRule : Prop :=
  ∀ s : State, s.phase = .feed →
    let t := engineStep s
    t.h.toList = [s.h[0] + s.work.a, s.h[1] + s.work.b, s.h[2] + s.work.c, s.h[3] + s.work.dw, s.h[4] + s.work.e] ∧
    (s.pend2 = true → t.pend2 = false ∧ t.phase = .round ∧ t.t = 0 ∧ t.w = padBlock2 s.bitlen ∧ t.status = s.status ∧
      t.work = ⟨s.h[0] + s.work.a, s.h[1] + s.work.b, s.h[2] + s.work.c, s.h[3] + s.work.dw, s.h[4] + s.work.e⟩) ∧
    (s.pend2 = false → t.pend2 = false ∧ t.phase = .idle ∧ t.status = { s.status with done := true }) ∧
    (∀ r, r ≠ .status → (∀ i, r ≠ .h i) → readReg r t = readReg r s) ∧
    t.rstN = s.rstN ∧ t.rdata = s.rdata ∧ t.host = s.host ∧ t.turns = s.turns

/-- R113: the schedule of a block, and the W buffer as its window: before round t, W[i] = W_{t+i}. -/
def Obligations.WindowHoldsTheSchedule : Prop :=
  (∀ (blk : Words16) (i : Fin 16), scheduleWord blk i = blk[i]) ∧
  (∀ (blk : Words16) (j : Nat), 16 ≤ j →
    scheduleWord blk j = (scheduleWord blk (j - 3) ^^^ scheduleWord blk (j - 8) ^^^ scheduleWord blk (j - 14) ^^^
      scheduleWord blk (j - 16)).rotateLeft 1) ∧
  ∀ (blk : Words16) (s : State) (n : Nat), n ≤ 80 → ∀ i : Fin 16,
    (engineSteps n (startBlock blk s)).w[i] = scheduleWord blk (n + i)

/-! The register window (spec/10_state.md, spec/20_memory.md) -/

/-- R20, R41: each register stands at the offset the table gives it, no two at one, and the aligned offsets without a register
are exactly the reserved ranges. -/
def Obligations.RegisterMapIsAsStated : Prop :=
  Reg.offset .id = 0x00 ∧ Reg.offset .cmd = 0x04 ∧ Reg.offset .status = 0x08 ∧ Reg.offset .inten = 0x0C ∧
  Reg.offset .mlen = 0x10 ∧ (∀ i : Fin 5, (Reg.offset (.h i)).toNat = 0x20 + 4 * i.val) ∧
  (∀ i : Fin 16, (Reg.offset (.m i)).toNat = 0x40 + 4 * i.val) ∧
  (∀ i : Fin 16, (Reg.offset (.k i)).toNat = 0x80 + 4 * i.val) ∧
  (∀ i : Fin 5, (Reg.offset (.d i)).toNat = 0xC0 + 4 * i.val) ∧ Reg.offset .hotpOffset = 0xE0 ∧
  Reg.offset .hotpTrunc = 0xE4 ∧ Reg.offset .hotpCode = 0xE8 ∧ Reg.offset .hotpBcd = 0xEC ∧
  (∀ r : Reg, regAt r.offset = some r) ∧
  (∀ (off : BitVec 8) (r : Reg), regAt off = some r → r.offset = off) ∧
  ∀ off : BitVec 8, off.toNat % 4 = 0 →
    (regAt off = none ↔ (0x14 ≤ off.toNat ∧ off.toNat ≤ 0x1C) ∨ (0x34 ≤ off.toNat ∧ off.toNat ≤ 0x3C) ∨
      (0xD4 ≤ off.toNat ∧ off.toNat ≤ 0xDC) ∨ 0xF0 ≤ off.toNat)

/-- R71, R101: whatever BASE is, the platform's decode of BASE + offset(reg) is the register's offset, and no address outside
[BASE, BASE + 0xFF] reaches the block; BASE is a multiple of 0x100 (R6). -/
def Obligations.WindowDecodesForEveryBase : Prop :=
  Config.base % 0x100 = 0 ∧ (∀ r : Reg, (windowOffset r.address).bind regAt = some r) ∧
  ∀ addr : Nat, windowOffset addr = none ↔ addr < Config.base ∨ Config.base + 0xFF < addr

/-- R73: a narrow or misaligned access changes nothing, reads 0, and sets ERR_ACCESS, in every phase and at every offset. -/
def Obligations.NarrowOrMisalignedAccessRefused : Prop :=
  ∀ (s : State) (a : Access), s.rstN = true → a.size ≠ .four ∨ a.offset.toNat % 4 ≠ 0 →
    busAccess a s = .next { s with
      status := { s.status with errAccess := true }, rdata := if a.write then none else some 0 }

/-- R74: an admitted read of a register returns its value and has no side effect, in every phase; CMD reads 0; a second read
returns the same. A reserved offset reads 0 and sets ERR_ACCESS. The engine writes only H, at a feed-forward, and STATUS. -/
def Obligations.ReadsReturnTheRegister : Prop :=
  (∀ (s : State) (r : Reg), s.rstN = true → ∃ t, busAccess (readAccess r) s = .next t ∧
    t = { s with rdata := some (readReg r s) } ∧ busAccess (readAccess r) t = .next t) ∧
  (∀ s : State, readReg .cmd s = 0) ∧
  (∀ (s : State) (off : BitVec 8), s.rstN = true → off.toNat % 4 = 0 → regAt off = none →
    busAccess ⟨off, .four, false, 0⟩ s = .next { s with status := { s.status with errAccess := true }, rdata := some 0 }) ∧
  (∀ (s : State) (r : Reg), r ≠ .status → (∀ i, r ≠ .h i) → readReg r (engineStep s) = readReg r s) ∧
  ∀ s : State, s.phase ≠ .feed → (engineStep s).h = s.h

/-- R75: while BUSY = 1 a write to CMD, MLEN, H, M, K or D is not performed and sets ERR_BUSY; STATUS and INTEN are never
locked. -/
def Obligations.BusyLockOnDataRegisters : Prop :=
  (∀ (s : State) (r : Reg) (v : Word), s.rstN = true → s.phase ≠ .idle →
    (r = .cmd ∨ r = .mlen ∨ (∃ i, r = .h i) ∨ (∃ i, r = .m i) ∨ (∃ i, r = .k i) ∨ ∃ i, r = .d i) →
    busAccess (writeAccess r v) s = .next { s with status := { s.status with errBusy := true }, rdata := none }) ∧
  ∀ (s : State) (r : Reg) (v : Word), s.rstN = true → r = .status ∨ r = .inten →
    ∃ t, busAccess (writeAccess r v) s = .next t ∧ t.status.errBusy = (s.status.errBusy && !(r = .status && v.getLsbD 2))

/-- R76: a write to a read-only register, and any access to a reserved offset, is not performed and sets ERR_ACCESS; the read
returns 0. -/
def Obligations.ReadOnlyAndReservedRefused : Prop :=
  (∀ (s : State) (r : Reg) (v : Word), s.rstN = true →
    r = .id ∨ r = .hotpOffset ∨ r = .hotpTrunc ∨ r = .hotpCode ∨ r = .hotpBcd →
    busAccess (writeAccess r v) s = .next { s with status := { s.status with errAccess := true }, rdata := none }) ∧
  ∀ (s : State) (off : BitVec 8) (write : Bool) (v : Word), s.rstN = true → off.toNat % 4 = 0 → regAt off = none →
    busAccess ⟨off, .four, write, v⟩ s = .next { s with
      status := { s.status with errAccess := true }, rdata := if write then none else some 0 }

/-- R77: every reserved bit of a register reads 0, in every state. -/
def Obligations.ReservedBitsReadZero : Prop :=
  ∀ s : State, (readReg .status s).toNat < 2 ^ 7 ∧ (readReg .inten s).toNat < 2 ^ 2 ∧ (readReg .hotpOffset s).toNat < 2 ^ 4 ∧
    (readReg .hotpTrunc s).toNat < 2 ^ 31 ∧ (readReg .hotpCode s).toNat < 2 ^ 20 ∧ (readReg .hotpBcd s).toNat < 2 ^ 24

/-- R78: an idle block's write to MLEN, H, M, K or D stores all 32 bits; a write to INTEN stores v[1:0] and a write to STATUS
clears by W1C, in every phase; a write to CMD is the command acceptance; no write but a CMD write changes another register
or the internal state. -/
def Obligations.WritesStoreTheRegister : Prop :=
  (∀ (s : State) (r : Reg) (v : Word), s.rstN = true → s.phase = .idle →
    (r = .mlen ∨ (∃ i, r = .h i) ∨ (∃ i, r = .m i) ∨ (∃ i, r = .k i) ∨ ∃ i, r = .d i) →
    ∃ t, busAccess (writeAccess r v) s = .next t ∧ readReg r t = v ∧ FrameExcept (· = r) { s with rdata := none } t) ∧
  (∀ (s : State) (v : Word), s.rstN = true →
    ∃ t, busAccess (writeAccess .inten v) s = .next t ∧ readReg .inten t = v &&& 0x3 ∧
      FrameExcept (· = .inten) { s with rdata := none } t) ∧
  (∀ (s : State) (v : Word), s.rstN = true →
    ∃ t, busAccess (writeAccess .status v) s = .next t ∧ readReg .status t = readReg .status s &&& ~~~(v &&& 0x7E) ∧
      FrameExcept (· = .status) { s with rdata := none } t) ∧
  ∀ (s : State) (v : Word), s.rstN = true → busAccess (writeAccess .cmd v) s = writeCmd v { s with rdata := none }

/-- R79: writing the same value twice to any register but CMD leaves the state that writing it once leaves. -/
def Obligations.RegisterWritesAreIdempotent : Prop :=
  ∀ (s : State) (r : Reg) (v : Word), r ≠ .cmd → ∃ t, busAccess (writeAccess r v) s = .next t ∧
    busAccess (writeAccess r v) t = .next t

/-- R23: `STATUS[6:1] <- STATUS[6:1] & ~v[6:1]`, BUSY and the reserved bits unchanged, in every phase; each flag stands at its
bit. -/
def Obligations.StatusWriteOneToClear : Prop :=
  (∀ (s : State) (v : Word), s.rstN = true → ∃ t, busAccess (writeAccess .status v) s = .next t ∧
    (∀ i, 1 ≤ i → i ≤ 6 → (readReg .status t).getLsbD i = ((readReg .status s).getLsbD i && !v.getLsbD i)) ∧
    (readReg .status t).getLsbD 0 = (readReg .status s).getLsbD 0) ∧
  (∀ s : State, (readReg .status s).getLsbD 0 = s.busy ∧ (readReg .status s).getLsbD 1 = s.status.done ∧
    (readReg .status s).getLsbD 2 = s.status.errBusy ∧ (readReg .status s).getLsbD 3 = s.status.errOpcode ∧
    (readReg .status s).getLsbD 4 = s.status.errArg ∧ (readReg .status s).getLsbD 5 = s.status.errAccess ∧
    (readReg .status s).getLsbD 6 = s.status.lenOvf ∧ ∀ i, 7 ≤ i → (readReg .status s).getLsbD i = false) ∧
  (∀ s : State, s.errAny = ((readReg .status s).extractLsb' 2 5 != 0)) ∧ readReg .status State.reset = 0

/-! Whole-machine rules -/

/-- R80, R83: no host access disables or changes the engine's step: while BUSY = 1, a step of the host or of another master
leaves the sequencer, the working registers, W and H as they are. -/
def Obligations.NoAccessDisturbsTheEngine : Prop :=
  ∀ s t : State, s.phase ≠ .idle → step s = .next t → nextTurn s ≠ .engine → nextTurn s ≠ .assertReset →
    t.phase = s.phase ∧ t.t = s.t ∧ t.pend2 = s.pend2 ∧ t.bitlen = s.bitlen ∧ t.work = s.work ∧ t.w = s.w ∧ t.h = s.h

/-- R74, R75, R212: while BUSY = 1, no step but a reset changes MLEN, M, K, D, the HOTP results or ID; the engine writes only H
and STATUS. -/
def Obligations.InputsAreConstantWhileBusy : Prop :=
  ∀ s t : State, s.phase ≠ .idle → step s = .next t → nextTurn s ≠ .assertReset →
    ∀ r, r ≠ .status → r ≠ .inten → (∀ i, r ≠ .h i) → readReg r t = readReg r s

/-- R33 to R36, R37 to R40: what can change each buffer. H: FEED, SHA_INIT, ZEROIZE, a host write; M: HMAC_IPAD, HMAC_OPAD,
MSG_FROM_DIGEST, ZEROIZE, a host write; K: KEY_PAD, KEY_FROM_DIGEST, ZEROIZE, a host write; D: SAVE_DIGEST, ZEROIZE, a host
write; the HOTP results: HOTP_TRUNC and ZEROIZE; each also reset. -/
def Obligations.OnlyTheNamedStepsChangeABuffer : Prop :=
  ∀ s t : State, step s = .next t → nextTurn s ≠ .assertReset →
    let byCommand (is : List Instr) : Prop := ∃ c, nextWrites .cmd c s ∧ s.phase = .idle ∧ ∃ i ∈ is, decode c = .ok i
    (t.h ≠ s.h → (nextTurn s = .engine ∧ s.phase = .feed) ∨ byCommand [.shaInit, .zeroize] ∨
      ∃ i v, nextWrites (.h i) v s ∧ s.phase = .idle) ∧
    (t.m ≠ s.m → byCommand [.hmacIpad, .hmacOpad, .msgFromDigest, .zeroize] ∨ ∃ i v, nextWrites (.m i) v s ∧ s.phase = .idle) ∧
    (t.k ≠ s.k → byCommand [.keyFromDigest, .zeroize] ∨ (∃ len, byCommand [.keyPad len]) ∨
      ∃ i v, nextWrites (.k i) v s ∧ s.phase = .idle) ∧
    (t.d ≠ s.d → byCommand [.saveDigest, .zeroize] ∨ ∃ i v, nextWrites (.d i) v s ∧ s.phase = .idle) ∧
    (t.hotp ≠ s.hotp → byCommand [.hotpTrunc, .zeroize])

/-- Every step keeps the invariant of the machine (spec/10_state.md R50, R51, R39, R40; spec/60_exceptions.md R218;
spec/70_reset_and_hazards.md R250). -/
def Obligations.EveryStepKeepsTheInvariant : Prop := ∀ s t : State, s.Inv → step s = .next t → t.Inv

/-- The state after reset meets the invariant. -/
def Obligations.ResetMeetsTheInvariant : Prop := State.reset.Inv

/-- R80, R262: a busy block returns to BUSY = 0 after at most 162 engine steps in every execution: whatever accesses are
interleaved, if the pending turns hold 162 engine turns and no reset, some step leaves phase IDLE. -/
def Obligations.BusyEndsWithin162EngineSteps : Prop :=
  ∀ s : State, s.Inv → s.rstN = true → .assertReset ∉ s.turns → 162 ≤ s.turns.count .engine →
    ∃ n t, n ≤ s.turns.length ∧ core.run n s = .next t ∧ t.phase = .idle

/-- R251, R253: the values the spec leaves unspecified at reset cannot be observed: two idle machines that differ only in t,
BITLEN, A..E and W give the same outputs at every step, whatever the agents do. -/
def Obligations.UnspecifiedValuesAreUnobservable : Prop :=
  ∀ (s : State) (t : BitVec 7) (bitlen : BitVec 64) (work : Work) (w : Words16) (n : Nat), s.phase = .idle →
    outputsOver n { s with t := t, bitlen := bitlen, work := work, w := w } = outputsOver n s

/-- R250: when `rst_n` is sampled low every register reads its reset value, the sequencer is IDLE and PEND2 is 0, whatever was running;
until it is released an access of any form changes nothing, a read returns 0 and no error bit is set. -/
def Obligations.ResetOverridesEverything : Prop :=
  (∀ (s : State) (rest : List Turn), ∃ t, step { s with turns := .assertReset :: rest } = .next t ∧
    t.phase = .idle ∧ t.pend2 = false ∧ t.rstN = false ∧ t.irq = false ∧
    ∀ r, readReg r t = resetValue r) ∧
  ∀ (s : State) (a : Access), s.rstN = false → busAccess a s = .next { s with rdata := if a.write then none else some 0 }

/-- R251: the reset state: every register reads the value of the table, the phase is IDLE, PEND2 is 0, irq is 0. -/
def Obligations.ResetStateIsAsStated : Prop :=
  readReg .id State.reset = 0x53484131 ∧ (∀ r, r ≠ .id → readReg r State.reset = 0) ∧
    State.reset.phase = .idle ∧ State.reset.pend2 = false ∧ State.reset.irq = false

/-! The host's notation (spec/30_encoding.md R102, R104; spec/42_hotp.md R185) -/

/-- R104: LDM and LDK write exactly the words i with 4i < k of M and of K, each with bytes 4i .. 4i+3 packed big-endian and
bytes past the end 0; more than 64 bytes is no load. -/
def Obligations.LoadsPackBytesBigEndian : Prop :=
  ∀ (bytes : List Byte) (line : HostLine) (buf : Fin 16 → Reg),
    (line = .ldm bytes ∧ buf = .m) ∨ (line = .ldk bytes ∧ buf = .k) →
    (64 < bytes.length → line.expand = none) ∧
    (bytes.length ≤ 64 → ∃ items, line.expand = some items ∧ items.length = (bytes.length + 3) / 4 ∧
      ∀ i : Fin 16, i.val < items.length → ∃ v : Word, items[i.val]? = some (.wr (buf i) v) ∧
        ∀ r, r < 4 → v.extractLsb' (24 - 8 * r) 8 = bytes.getD (4 * i.val + r) 0)

/-- R185: the counter's eight bytes, most significant first, load as M0 = C[63:32] and M1 = C[31:0]. -/
def Obligations.CounterLoadsHighWordFirst : Prop :=
  ∀ c : BitVec 64, (HostLine.ldm (counterBytes c)).expand =
    some [.wr (.m 0) (c.extractLsb' 32 32), .wr (.m 1) (c.extractLsb' 0 32)]
end

