-- ==== Sys2Proof/Laws/State.lean ====
section
/-! SUPPORT. One lemma per field per shared update of the state, each true by rfl, so that no proof unfolds a record update. -/

namespace Sys2Proof.Machine

/-! `raiseError` -/

@[simp] theorem raiseError_status (kind : ErrorKind) (s : State) : (raiseError kind s).status = s.status.raise kind := rfl
@[simp] theorem raiseError_inten (kind : ErrorKind) (s : State) : (raiseError kind s).inten = s.inten := rfl
@[simp] theorem raiseError_mlen (kind : ErrorKind) (s : State) : (raiseError kind s).mlen = s.mlen := rfl
@[simp] theorem raiseError_h (kind : ErrorKind) (s : State) : (raiseError kind s).h = s.h := rfl
@[simp] theorem raiseError_m (kind : ErrorKind) (s : State) : (raiseError kind s).m = s.m := rfl
@[simp] theorem raiseError_k (kind : ErrorKind) (s : State) : (raiseError kind s).k = s.k := rfl
@[simp] theorem raiseError_d (kind : ErrorKind) (s : State) : (raiseError kind s).d = s.d := rfl
@[simp] theorem raiseError_hotp (kind : ErrorKind) (s : State) : (raiseError kind s).hotp = s.hotp := rfl
@[simp] theorem raiseError_phase (kind : ErrorKind) (s : State) : (raiseError kind s).phase = s.phase := rfl
@[simp] theorem raiseError_t (kind : ErrorKind) (s : State) : (raiseError kind s).t = s.t := rfl
@[simp] theorem raiseError_pend2 (kind : ErrorKind) (s : State) : (raiseError kind s).pend2 = s.pend2 := rfl
@[simp] theorem raiseError_bitlen (kind : ErrorKind) (s : State) : (raiseError kind s).bitlen = s.bitlen := rfl
@[simp] theorem raiseError_work (kind : ErrorKind) (s : State) : (raiseError kind s).work = s.work := rfl
@[simp] theorem raiseError_w (kind : ErrorKind) (s : State) : (raiseError kind s).w = s.w := rfl
@[simp] theorem raiseError_rstN (kind : ErrorKind) (s : State) : (raiseError kind s).rstN = s.rstN := rfl
@[simp] theorem raiseError_rdata (kind : ErrorKind) (s : State) : (raiseError kind s).rdata = s.rdata := rfl
@[simp] theorem raiseError_host (kind : ErrorKind) (s : State) : (raiseError kind s).host = s.host := rfl
@[simp] theorem raiseError_turns (kind : ErrorKind) (s : State) : (raiseError kind s).turns = s.turns := rfl

/-! `ackStatus` -/

@[simp] theorem ackStatus_status (v : Word) (s : State) : (ackStatus v s).status = s.status.w1c v := rfl
@[simp] theorem ackStatus_inten (v : Word) (s : State) : (ackStatus v s).inten = s.inten := rfl
@[simp] theorem ackStatus_mlen (v : Word) (s : State) : (ackStatus v s).mlen = s.mlen := rfl
@[simp] theorem ackStatus_h (v : Word) (s : State) : (ackStatus v s).h = s.h := rfl
@[simp] theorem ackStatus_m (v : Word) (s : State) : (ackStatus v s).m = s.m := rfl
@[simp] theorem ackStatus_k (v : Word) (s : State) : (ackStatus v s).k = s.k := rfl
@[simp] theorem ackStatus_d (v : Word) (s : State) : (ackStatus v s).d = s.d := rfl
@[simp] theorem ackStatus_hotp (v : Word) (s : State) : (ackStatus v s).hotp = s.hotp := rfl
@[simp] theorem ackStatus_phase (v : Word) (s : State) : (ackStatus v s).phase = s.phase := rfl
@[simp] theorem ackStatus_t (v : Word) (s : State) : (ackStatus v s).t = s.t := rfl
@[simp] theorem ackStatus_pend2 (v : Word) (s : State) : (ackStatus v s).pend2 = s.pend2 := rfl
@[simp] theorem ackStatus_bitlen (v : Word) (s : State) : (ackStatus v s).bitlen = s.bitlen := rfl
@[simp] theorem ackStatus_work (v : Word) (s : State) : (ackStatus v s).work = s.work := rfl
@[simp] theorem ackStatus_w (v : Word) (s : State) : (ackStatus v s).w = s.w := rfl
@[simp] theorem ackStatus_rstN (v : Word) (s : State) : (ackStatus v s).rstN = s.rstN := rfl
@[simp] theorem ackStatus_rdata (v : Word) (s : State) : (ackStatus v s).rdata = s.rdata := rfl
@[simp] theorem ackStatus_host (v : Word) (s : State) : (ackStatus v s).host = s.host := rfl
@[simp] theorem ackStatus_turns (v : Word) (s : State) : (ackStatus v s).turns = s.turns := rfl

/-! `setDone` -/

@[simp] theorem setDone_status (b : Bool) (s : State) : (setDone b s).status = { s.status with done := b } := rfl
@[simp] theorem setDone_inten (b : Bool) (s : State) : (setDone b s).inten = s.inten := rfl
@[simp] theorem setDone_mlen (b : Bool) (s : State) : (setDone b s).mlen = s.mlen := rfl
@[simp] theorem setDone_h (b : Bool) (s : State) : (setDone b s).h = s.h := rfl
@[simp] theorem setDone_m (b : Bool) (s : State) : (setDone b s).m = s.m := rfl
@[simp] theorem setDone_k (b : Bool) (s : State) : (setDone b s).k = s.k := rfl
@[simp] theorem setDone_d (b : Bool) (s : State) : (setDone b s).d = s.d := rfl
@[simp] theorem setDone_hotp (b : Bool) (s : State) : (setDone b s).hotp = s.hotp := rfl
@[simp] theorem setDone_phase (b : Bool) (s : State) : (setDone b s).phase = s.phase := rfl
@[simp] theorem setDone_t (b : Bool) (s : State) : (setDone b s).t = s.t := rfl
@[simp] theorem setDone_pend2 (b : Bool) (s : State) : (setDone b s).pend2 = s.pend2 := rfl
@[simp] theorem setDone_bitlen (b : Bool) (s : State) : (setDone b s).bitlen = s.bitlen := rfl
@[simp] theorem setDone_work (b : Bool) (s : State) : (setDone b s).work = s.work := rfl
@[simp] theorem setDone_w (b : Bool) (s : State) : (setDone b s).w = s.w := rfl
@[simp] theorem setDone_rstN (b : Bool) (s : State) : (setDone b s).rstN = s.rstN := rfl
@[simp] theorem setDone_rdata (b : Bool) (s : State) : (setDone b s).rdata = s.rdata := rfl
@[simp] theorem setDone_host (b : Bool) (s : State) : (setDone b s).host = s.host := rfl
@[simp] theorem setDone_turns (b : Bool) (s : State) : (setDone b s).turns = s.turns := rfl

/-! `addLength` -/

@[simp] theorem addLength_status (n : Nat) (s : State) : (addLength n s).status = { s.status with lenOvf := s.status.lenOvf || lengthWraps s.mlen n } := rfl
@[simp] theorem addLength_inten (n : Nat) (s : State) : (addLength n s).inten = s.inten := rfl
@[simp] theorem addLength_mlen (n : Nat) (s : State) : (addLength n s).mlen = s.mlen + BitVec.ofNat 32 n := rfl
@[simp] theorem addLength_h (n : Nat) (s : State) : (addLength n s).h = s.h := rfl
@[simp] theorem addLength_m (n : Nat) (s : State) : (addLength n s).m = s.m := rfl
@[simp] theorem addLength_k (n : Nat) (s : State) : (addLength n s).k = s.k := rfl
@[simp] theorem addLength_d (n : Nat) (s : State) : (addLength n s).d = s.d := rfl
@[simp] theorem addLength_hotp (n : Nat) (s : State) : (addLength n s).hotp = s.hotp := rfl
@[simp] theorem addLength_phase (n : Nat) (s : State) : (addLength n s).phase = s.phase := rfl
@[simp] theorem addLength_t (n : Nat) (s : State) : (addLength n s).t = s.t := rfl
@[simp] theorem addLength_pend2 (n : Nat) (s : State) : (addLength n s).pend2 = s.pend2 := rfl
@[simp] theorem addLength_bitlen (n : Nat) (s : State) : (addLength n s).bitlen = s.bitlen := rfl
@[simp] theorem addLength_work (n : Nat) (s : State) : (addLength n s).work = s.work := rfl
@[simp] theorem addLength_w (n : Nat) (s : State) : (addLength n s).w = s.w := rfl
@[simp] theorem addLength_rstN (n : Nat) (s : State) : (addLength n s).rstN = s.rstN := rfl
@[simp] theorem addLength_rdata (n : Nat) (s : State) : (addLength n s).rdata = s.rdata := rfl
@[simp] theorem addLength_host (n : Nat) (s : State) : (addLength n s).host = s.host := rfl
@[simp] theorem addLength_turns (n : Nat) (s : State) : (addLength n s).turns = s.turns := rfl

/-! `startBlock` -/

@[simp] theorem startBlock_status (blk : Words16) (s : State) : (startBlock blk s).status = s.status := rfl
@[simp] theorem startBlock_inten (blk : Words16) (s : State) : (startBlock blk s).inten = s.inten := rfl
@[simp] theorem startBlock_mlen (blk : Words16) (s : State) : (startBlock blk s).mlen = s.mlen := rfl
@[simp] theorem startBlock_h (blk : Words16) (s : State) : (startBlock blk s).h = s.h := rfl
@[simp] theorem startBlock_m (blk : Words16) (s : State) : (startBlock blk s).m = s.m := rfl
@[simp] theorem startBlock_k (blk : Words16) (s : State) : (startBlock blk s).k = s.k := rfl
@[simp] theorem startBlock_d (blk : Words16) (s : State) : (startBlock blk s).d = s.d := rfl
@[simp] theorem startBlock_hotp (blk : Words16) (s : State) : (startBlock blk s).hotp = s.hotp := rfl
@[simp] theorem startBlock_phase (blk : Words16) (s : State) : (startBlock blk s).phase = .round := rfl
@[simp] theorem startBlock_t (blk : Words16) (s : State) : (startBlock blk s).t = 0 := rfl
@[simp] theorem startBlock_pend2 (blk : Words16) (s : State) : (startBlock blk s).pend2 = s.pend2 := rfl
@[simp] theorem startBlock_bitlen (blk : Words16) (s : State) : (startBlock blk s).bitlen = s.bitlen := rfl
@[simp] theorem startBlock_work (blk : Words16) (s : State) : (startBlock blk s).work = workOf s.h := rfl
@[simp] theorem startBlock_w (blk : Words16) (s : State) : (startBlock blk s).w = blk := rfl
@[simp] theorem startBlock_rstN (blk : Words16) (s : State) : (startBlock blk s).rstN = s.rstN := rfl
@[simp] theorem startBlock_rdata (blk : Words16) (s : State) : (startBlock blk s).rdata = s.rdata := rfl
@[simp] theorem startBlock_host (blk : Words16) (s : State) : (startBlock blk s).host = s.host := rfl
@[simp] theorem startBlock_turns (blk : Words16) (s : State) : (startBlock blk s).turns = s.turns := rfl

/-! `startCompress` -/

@[simp] theorem startCompress_status (s : State) : (startCompress s).status = { s.status with lenOvf := s.status.lenOvf || lengthWraps s.mlen 64 } := rfl
@[simp] theorem startCompress_inten (s : State) : (startCompress s).inten = s.inten := rfl
@[simp] theorem startCompress_mlen (s : State) : (startCompress s).mlen = s.mlen + 64 := rfl
@[simp] theorem startCompress_h (s : State) : (startCompress s).h = s.h := rfl
@[simp] theorem startCompress_m (s : State) : (startCompress s).m = s.m := rfl
@[simp] theorem startCompress_k (s : State) : (startCompress s).k = s.k := rfl
@[simp] theorem startCompress_d (s : State) : (startCompress s).d = s.d := rfl
@[simp] theorem startCompress_hotp (s : State) : (startCompress s).hotp = s.hotp := rfl
@[simp] theorem startCompress_phase (s : State) : (startCompress s).phase = .round := rfl
@[simp] theorem startCompress_t (s : State) : (startCompress s).t = 0 := rfl
@[simp] theorem startCompress_pend2 (s : State) : (startCompress s).pend2 = false := rfl
@[simp] theorem startCompress_bitlen (s : State) : (startCompress s).bitlen = s.bitlen := rfl
@[simp] theorem startCompress_work (s : State) : (startCompress s).work = workOf s.h := rfl
@[simp] theorem startCompress_w (s : State) : (startCompress s).w = s.m := rfl
@[simp] theorem startCompress_rstN (s : State) : (startCompress s).rstN = s.rstN := rfl
@[simp] theorem startCompress_rdata (s : State) : (startCompress s).rdata = s.rdata := rfl
@[simp] theorem startCompress_host (s : State) : (startCompress s).host = s.host := rfl
@[simp] theorem startCompress_turns (s : State) : (startCompress s).turns = s.turns := rfl

/-! `startFinal` -/

@[simp] theorem startFinal_status (n : Nat) (s : State) : (startFinal n s).status = { s.status with lenOvf := s.status.lenOvf || lengthWraps s.mlen n } := rfl
@[simp] theorem startFinal_inten (n : Nat) (s : State) : (startFinal n s).inten = s.inten := rfl
@[simp] theorem startFinal_mlen (n : Nat) (s : State) : (startFinal n s).mlen = s.mlen + BitVec.ofNat 32 n := rfl
@[simp] theorem startFinal_h (n : Nat) (s : State) : (startFinal n s).h = s.h := rfl
@[simp] theorem startFinal_m (n : Nat) (s : State) : (startFinal n s).m = s.m := rfl
@[simp] theorem startFinal_k (n : Nat) (s : State) : (startFinal n s).k = s.k := rfl
@[simp] theorem startFinal_d (n : Nat) (s : State) : (startFinal n s).d = s.d := rfl
@[simp] theorem startFinal_hotp (n : Nat) (s : State) : (startFinal n s).hotp = s.hotp := rfl
@[simp] theorem startFinal_phase (n : Nat) (s : State) : (startFinal n s).phase = .round := rfl
@[simp] theorem startFinal_t (n : Nat) (s : State) : (startFinal n s).t = 0 := rfl
@[simp] theorem startFinal_pend2 (n : Nat) (s : State) : (startFinal n s).pend2 = decide (55 < n) := rfl
@[simp] theorem startFinal_bitlen (n : Nat) (s : State) : (startFinal n s).bitlen = if n ≤ 55 then s.bitlen else bitLength (s.mlen + BitVec.ofNat 32 n) := rfl
@[simp] theorem startFinal_work (n : Nat) (s : State) : (startFinal n s).work = workOf s.h := rfl
@[simp] theorem startFinal_w (n : Nat) (s : State) : (startFinal n s).w = padBlock1 s.m n (bitLength (s.mlen + BitVec.ofNat 32 n)) := rfl
@[simp] theorem startFinal_rstN (n : Nat) (s : State) : (startFinal n s).rstN = s.rstN := rfl
@[simp] theorem startFinal_rdata (n : Nat) (s : State) : (startFinal n s).rdata = s.rdata := rfl
@[simp] theorem startFinal_host (n : Nat) (s : State) : (startFinal n s).host = s.host := rfl
@[simp] theorem startFinal_turns (n : Nat) (s : State) : (startFinal n s).turns = s.turns := rfl

/-! `respond` -/

@[simp] theorem respond_status (a : Access) (v : Word) (s : State) : (respond a v s).status = s.status := rfl
@[simp] theorem respond_inten (a : Access) (v : Word) (s : State) : (respond a v s).inten = s.inten := rfl
@[simp] theorem respond_mlen (a : Access) (v : Word) (s : State) : (respond a v s).mlen = s.mlen := rfl
@[simp] theorem respond_h (a : Access) (v : Word) (s : State) : (respond a v s).h = s.h := rfl
@[simp] theorem respond_m (a : Access) (v : Word) (s : State) : (respond a v s).m = s.m := rfl
@[simp] theorem respond_k (a : Access) (v : Word) (s : State) : (respond a v s).k = s.k := rfl
@[simp] theorem respond_d (a : Access) (v : Word) (s : State) : (respond a v s).d = s.d := rfl
@[simp] theorem respond_hotp (a : Access) (v : Word) (s : State) : (respond a v s).hotp = s.hotp := rfl
@[simp] theorem respond_phase (a : Access) (v : Word) (s : State) : (respond a v s).phase = s.phase := rfl
@[simp] theorem respond_t (a : Access) (v : Word) (s : State) : (respond a v s).t = s.t := rfl
@[simp] theorem respond_pend2 (a : Access) (v : Word) (s : State) : (respond a v s).pend2 = s.pend2 := rfl
@[simp] theorem respond_bitlen (a : Access) (v : Word) (s : State) : (respond a v s).bitlen = s.bitlen := rfl
@[simp] theorem respond_work (a : Access) (v : Word) (s : State) : (respond a v s).work = s.work := rfl
@[simp] theorem respond_w (a : Access) (v : Word) (s : State) : (respond a v s).w = s.w := rfl
@[simp] theorem respond_rstN (a : Access) (v : Word) (s : State) : (respond a v s).rstN = s.rstN := rfl
@[simp] theorem respond_rdata (a : Access) (v : Word) (s : State) : (respond a v s).rdata = if a.write then none else some v := rfl
@[simp] theorem respond_host (a : Access) (v : Word) (s : State) : (respond a v s).host = s.host := rfl
@[simp] theorem respond_turns (a : Access) (v : Word) (s : State) : (respond a v s).turns = s.turns := rfl

/-! `hostGoto` -/

@[simp] theorem hostGoto_status (n : Nat) (s : State) : (hostGoto n s).status = s.status := rfl
@[simp] theorem hostGoto_inten (n : Nat) (s : State) : (hostGoto n s).inten = s.inten := rfl
@[simp] theorem hostGoto_mlen (n : Nat) (s : State) : (hostGoto n s).mlen = s.mlen := rfl
@[simp] theorem hostGoto_h (n : Nat) (s : State) : (hostGoto n s).h = s.h := rfl
@[simp] theorem hostGoto_m (n : Nat) (s : State) : (hostGoto n s).m = s.m := rfl
@[simp] theorem hostGoto_k (n : Nat) (s : State) : (hostGoto n s).k = s.k := rfl
@[simp] theorem hostGoto_d (n : Nat) (s : State) : (hostGoto n s).d = s.d := rfl
@[simp] theorem hostGoto_hotp (n : Nat) (s : State) : (hostGoto n s).hotp = s.hotp := rfl
@[simp] theorem hostGoto_phase (n : Nat) (s : State) : (hostGoto n s).phase = s.phase := rfl
@[simp] theorem hostGoto_t (n : Nat) (s : State) : (hostGoto n s).t = s.t := rfl
@[simp] theorem hostGoto_pend2 (n : Nat) (s : State) : (hostGoto n s).pend2 = s.pend2 := rfl
@[simp] theorem hostGoto_bitlen (n : Nat) (s : State) : (hostGoto n s).bitlen = s.bitlen := rfl
@[simp] theorem hostGoto_work (n : Nat) (s : State) : (hostGoto n s).work = s.work := rfl
@[simp] theorem hostGoto_w (n : Nat) (s : State) : (hostGoto n s).w = s.w := rfl
@[simp] theorem hostGoto_rstN (n : Nat) (s : State) : (hostGoto n s).rstN = s.rstN := rfl
@[simp] theorem hostGoto_rdata (n : Nat) (s : State) : (hostGoto n s).rdata = s.rdata := rfl
@[simp] theorem hostGoto_host (n : Nat) (s : State) : (hostGoto n s).host = { s.host with pc := n } := rfl
@[simp] theorem hostGoto_turns (n : Nat) (s : State) : (hostGoto n s).turns = s.turns := rfl

/-! `dropTurn` -/

@[simp] theorem dropTurn_status (s : State) : (dropTurn s).status = s.status := rfl
@[simp] theorem dropTurn_inten (s : State) : (dropTurn s).inten = s.inten := rfl
@[simp] theorem dropTurn_mlen (s : State) : (dropTurn s).mlen = s.mlen := rfl
@[simp] theorem dropTurn_h (s : State) : (dropTurn s).h = s.h := rfl
@[simp] theorem dropTurn_m (s : State) : (dropTurn s).m = s.m := rfl
@[simp] theorem dropTurn_k (s : State) : (dropTurn s).k = s.k := rfl
@[simp] theorem dropTurn_d (s : State) : (dropTurn s).d = s.d := rfl
@[simp] theorem dropTurn_hotp (s : State) : (dropTurn s).hotp = s.hotp := rfl
@[simp] theorem dropTurn_phase (s : State) : (dropTurn s).phase = s.phase := rfl
@[simp] theorem dropTurn_t (s : State) : (dropTurn s).t = s.t := rfl
@[simp] theorem dropTurn_pend2 (s : State) : (dropTurn s).pend2 = s.pend2 := rfl
@[simp] theorem dropTurn_bitlen (s : State) : (dropTurn s).bitlen = s.bitlen := rfl
@[simp] theorem dropTurn_work (s : State) : (dropTurn s).work = s.work := rfl
@[simp] theorem dropTurn_w (s : State) : (dropTurn s).w = s.w := rfl
@[simp] theorem dropTurn_rstN (s : State) : (dropTurn s).rstN = s.rstN := rfl
@[simp] theorem dropTurn_rdata (s : State) : (dropTurn s).rdata = s.rdata := rfl
@[simp] theorem dropTurn_host (s : State) : (dropTurn s).host = s.host := rfl
@[simp] theorem dropTurn_turns (s : State) : (dropTurn s).turns = s.turns.tail := rfl

/-! `holdInReset` -/

@[simp] theorem holdInReset_status (s : State) : (holdInReset s).status = ⟨false, false, false, false, false, false⟩ := rfl
@[simp] theorem holdInReset_inten (s : State) : (holdInReset s).inten = ⟨false, false⟩ := rfl
@[simp] theorem holdInReset_mlen (s : State) : (holdInReset s).mlen = 0 := rfl
@[simp] theorem holdInReset_h (s : State) : (holdInReset s).h = zero5 := rfl
@[simp] theorem holdInReset_m (s : State) : (holdInReset s).m = zero16 := rfl
@[simp] theorem holdInReset_k (s : State) : (holdInReset s).k = zero16 := rfl
@[simp] theorem holdInReset_d (s : State) : (holdInReset s).d = zero5 := rfl
@[simp] theorem holdInReset_hotp (s : State) : (holdInReset s).hotp = ⟨0, 0, 0, 0⟩ := rfl
@[simp] theorem holdInReset_phase (s : State) : (holdInReset s).phase = .idle := rfl
@[simp] theorem holdInReset_t (s : State) : (holdInReset s).t = 0 := rfl
@[simp] theorem holdInReset_pend2 (s : State) : (holdInReset s).pend2 = false := rfl
@[simp] theorem holdInReset_bitlen (s : State) : (holdInReset s).bitlen = 0 := rfl
@[simp] theorem holdInReset_work (s : State) : (holdInReset s).work = ⟨0, 0, 0, 0, 0⟩ := rfl
@[simp] theorem holdInReset_w (s : State) : (holdInReset s).w = zero16 := rfl
@[simp] theorem holdInReset_rstN (s : State) : (holdInReset s).rstN = false := rfl
@[simp] theorem holdInReset_rdata (s : State) : (holdInReset s).rdata = none := rfl
@[simp] theorem holdInReset_host (s : State) : (holdInReset s).host = s.host := rfl
@[simp] theorem holdInReset_turns (s : State) : (holdInReset s).turns = s.turns := rfl

/-! `clearData` -/

@[simp] theorem clearData_status (s : State) : (clearData s).status = s.status := rfl
@[simp] theorem clearData_inten (s : State) : (clearData s).inten = s.inten := rfl
@[simp] theorem clearData_mlen (s : State) : (clearData s).mlen = 0 := rfl
@[simp] theorem clearData_h (s : State) : (clearData s).h = zero5 := rfl
@[simp] theorem clearData_m (s : State) : (clearData s).m = zero16 := rfl
@[simp] theorem clearData_k (s : State) : (clearData s).k = zero16 := rfl
@[simp] theorem clearData_d (s : State) : (clearData s).d = zero5 := rfl
@[simp] theorem clearData_hotp (s : State) : (clearData s).hotp = ⟨0, 0, 0, 0⟩ := rfl
@[simp] theorem clearData_phase (s : State) : (clearData s).phase = s.phase := rfl
@[simp] theorem clearData_t (s : State) : (clearData s).t = s.t := rfl
@[simp] theorem clearData_pend2 (s : State) : (clearData s).pend2 = false := rfl
@[simp] theorem clearData_bitlen (s : State) : (clearData s).bitlen = 0 := rfl
@[simp] theorem clearData_work (s : State) : (clearData s).work = ⟨0, 0, 0, 0, 0⟩ := rfl
@[simp] theorem clearData_w (s : State) : (clearData s).w = zero16 := rfl
@[simp] theorem clearData_rstN (s : State) : (clearData s).rstN = s.rstN := rfl
@[simp] theorem clearData_rdata (s : State) : (clearData s).rdata = s.rdata := rfl
@[simp] theorem clearData_host (s : State) : (clearData s).host = s.host := rfl
@[simp] theorem clearData_turns (s : State) : (clearData s).turns = s.turns := rfl

end Sys2Proof.Machine
end

