-- ==== Sys2Proof/Laws/Ops.lean ====
section
/-! SUPPORT. What each shared operation can do: acceptance, the argument check, BUSY, the exec of each command. -/

namespace Sys2Proof.Machine

theorem busy_eq_false {s : State} (h : s.phase = .idle) : s.busy = false := by simp [State.busy, h]

theorem busy_eq_true {s : State} (h : s.phase ≠ .idle) : s.busy = true := by simp [State.busy, h]

theorem busy_eq_true_iff {s : State} : s.busy = true ↔ s.phase ≠ .idle := by simp [State.busy]

theorem busy_eq_false_iff {s : State} : s.busy = false ↔ s.phase = .idle := by simp [State.busy]

@[simp] theorem acceptSingle_of_idle {effect : State → State} {s : State} (h : s.phase = .idle) :
    acceptSingle effect s = .next (setDone true (effect (setDone false s))) := by
  simp [acceptSingle, busy_eq_false h]

@[simp] theorem acceptSingle_of_busy {effect : State → State} {s : State} (h : s.phase ≠ .idle) :
    acceptSingle effect s = .next (raiseError .errBusy s) := by
  simp [acceptSingle, busy_eq_true h]

@[simp] theorem acceptMulti_of_idle {start : State → State} {s : State} (h : s.phase = .idle) :
    acceptMulti start s = .next (start (setDone false s)) := by
  simp [acceptMulti, busy_eq_false h]

@[simp] theorem acceptMulti_of_busy {start : State → State} {s : State} (h : s.phase ≠ .idle) :
    acceptMulti start s = .next (raiseError .errBusy s) := by
  simp [acceptMulti, busy_eq_true h]

theorem checkArg_of_busy {ok : Bool} {accept : State → Host.Outcome State Fault Refusal} {s : State} (h : s.phase ≠ .idle) :
    checkArg ok accept s = .next (raiseError .errBusy s) := by
  simp [checkArg, busy_eq_true h]

theorem checkArg_of_idle {ok : Bool} {accept : State → Host.Outcome State Fault Refusal} {s : State} (h : s.phase = .idle) :
    checkArg ok accept s = if ok then accept s else .next (raiseError .errArg s) := by
  simp [checkArg, busy_eq_false h]

/-- The state changes of an accepted command between clearing DONE and (for a single-step command) setting it. -/
def acceptedEffect : Instr → State → State
  | .nop, s => s
  | .shaInit, s => { s with h := initialValue, mlen := 0 }
  | .shaCompress, s => startCompress s
  | .shaFinal n, s => startFinal (argCount n) s
  | .saveDigest, s => { s with d := s.h }
  | .msgFromDigest, s => { s with m := messageFromDigest s.m s.d }
  | .keyPad len, s => { s with k := zeroKeyFrom (argCount len) s.k }
  | .keyFromDigest, s => { s with k := keyOfDigest s.h }
  | .hmacIpad, s => { s with m := xorPad ipadWord s.k }
  | .hmacOpad, s => { s with m := xorPad opadWord s.k }
  | .hotpTrunc, s => { s with hotp := hotpResults s.d }
  | .zeroize, s => clearData s

/-- SHA_COMPRESS and SHA_FINAL start the engine; every other command completes in its own step. -/
def startsEngine : Instr → Bool
  | .shaCompress | .shaFinal _ => true
  | .nop | .shaInit | .saveDigest | .msgFromDigest | .keyPad _ | .keyFromDigest => false
  | .hmacIpad | .hmacOpad | .hotpTrunc | .zeroize => false

/-- The state an accepted command leaves. -/
def acceptedState (i : Instr) (s : State) : State :=
  if startsEngine i then acceptedEffect i (setDone false s) else setDone true (acceptedEffect i (setDone false s))

theorem exec_of_busy (i : Instr) {s : State} (h : s.phase ≠ .idle) : exec i s = .next (raiseError .errBusy s) := by
  cases i
  case shaFinal n => exact checkArg_of_busy h
  case keyPad len => exact checkArg_of_busy h
  case shaCompress => exact acceptMulti_of_busy h
  case nop => exact acceptSingle_of_busy (effect := acceptedEffect .nop) h
  case shaInit => exact acceptSingle_of_busy (effect := acceptedEffect .shaInit) h
  case saveDigest => exact acceptSingle_of_busy (effect := acceptedEffect .saveDigest) h
  case msgFromDigest => exact acceptSingle_of_busy (effect := acceptedEffect .msgFromDigest) h
  case keyFromDigest => exact acceptSingle_of_busy (effect := acceptedEffect .keyFromDigest) h
  case hmacIpad => exact acceptSingle_of_busy (effect := acceptedEffect .hmacIpad) h
  case hmacOpad => exact acceptSingle_of_busy (effect := acceptedEffect .hmacOpad) h
  case hotpTrunc => exact acceptSingle_of_busy (effect := acceptedEffect .hotpTrunc) h
  case zeroize => exact acceptSingle_of_busy (effect := acceptedEffect .zeroize) h

theorem exec_of_idle (i : Instr) {s : State} (h : s.phase = .idle) :
    exec i s = .next (if i.wf then acceptedState i s else raiseError .errArg s) := by
  cases i
  case shaFinal n =>
    refine (checkArg_of_idle h).trans ?_
    by_cases hn : n.toNat ≤ 63
    · simp only [finalArgOk, argCount, Instr.wf, hn, decide_true, if_true]
      exact acceptMulti_of_idle h
    · simp [finalArgOk, argCount, Instr.wf, hn]
  case keyPad len =>
    refine (checkArg_of_idle h).trans ?_
    by_cases hn : len.toNat ≤ 64
    · simp only [keyPadArgOk, argCount, Instr.wf, hn, decide_true, if_true]
      exact acceptSingle_of_idle h
    · simp [keyPadArgOk, argCount, Instr.wf, hn]
  case shaCompress => exact acceptMulti_of_idle h
  case nop => exact acceptSingle_of_idle (effect := acceptedEffect .nop) h
  case shaInit => exact acceptSingle_of_idle (effect := acceptedEffect .shaInit) h
  case saveDigest => exact acceptSingle_of_idle (effect := acceptedEffect .saveDigest) h
  case msgFromDigest => exact acceptSingle_of_idle (effect := acceptedEffect .msgFromDigest) h
  case keyFromDigest => exact acceptSingle_of_idle (effect := acceptedEffect .keyFromDigest) h
  case hmacIpad => exact acceptSingle_of_idle (effect := acceptedEffect .hmacIpad) h
  case hmacOpad => exact acceptSingle_of_idle (effect := acceptedEffect .hmacOpad) h
  case hotpTrunc => exact acceptSingle_of_idle (effect := acceptedEffect .hotpTrunc) h
  case zeroize => exact acceptSingle_of_idle (effect := acceptedEffect .zeroize) h

/-- exec inverted: a rejection for BUSY, a rejection for the argument, or acceptance. -/
theorem exec_cases {i : Instr} {s t : State} (h : exec i s = .next t) :
    (s.phase ≠ .idle ∧ t = raiseError .errBusy s) ∨
    (s.phase = .idle ∧ i.wf = false ∧ t = raiseError .errArg s) ∨
    (s.phase = .idle ∧ i.wf = true ∧ t = acceptedState i s) := by
  by_cases hb : s.phase = .idle
  · rw [exec_of_idle i hb] at h
    cases hw : i.wf <;> simp [hw] at h <;> simp [hb, h]
  · rw [exec_of_busy i hb] at h
    simp at h
    simp [hb, h]

theorem exec_answers_next (i : Instr) (s : State) : ∃ t, exec i s = .next t := by
  by_cases hb : s.phase = .idle
  · exact ⟨_, exec_of_idle i hb⟩
  · exact ⟨_, exec_of_busy i hb⟩

/-- The STATUS bits an accepted command leaves (R210, R218, R121): only DONE and LEN_OVF can differ. -/
theorem acceptedState_status (i : Instr) (s : State) :
    (acceptedState i s).status.errBusy = s.status.errBusy ∧ (acceptedState i s).status.errOpcode = s.status.errOpcode ∧
    (acceptedState i s).status.errArg = s.status.errArg ∧ (acceptedState i s).status.errAccess = s.status.errAccess ∧
    (s.status.lenOvf = true → (acceptedState i s).status.lenOvf = true) ∧
    (acceptedState i s).status.done = !startsEngine i := by
  cases i <;>
    simp [acceptedState, startsEngine, acceptedEffect, setDone, startCompress, startFinal, startBlock, addLength, clearData] <;>
    intro h <;> simp [h]

/-- Only a command that counts message bytes can set LEN_OVF (R30). -/
theorem acceptedState_lenOvf (i : Instr) (s : State) :
    (acceptedState i s).status.lenOvf = s.status.lenOvf ∨ startsEngine i = true := by
  cases i <;>
    simp [acceptedState, startsEngine, acceptedEffect, setDone, startCompress, startFinal, startBlock, addLength, clearData]

/-- The phase an accepted command leaves (R24). -/
theorem acceptedState_phase (i : Instr) {s : State} (h : s.phase = .idle) :
    (acceptedState i s).phase = if startsEngine i then .round else .idle := by
  cases i <;>
    simp [acceptedState, startsEngine, acceptedEffect, startCompress, startFinal, startBlock, addLength, clearData, h]

theorem startsEngine_iff {i : Instr} : startsEngine i = true ↔ i = .shaCompress ∨ ∃ n, i = .shaFinal n := by
  cases i <;> simp [startsEngine]

/-- The commands that write H at once (R33). -/
theorem acceptedState_h (i : Instr) (s : State) : (acceptedState i s).h = s.h ∨ i ∈ [Instr.shaInit, .zeroize] := by
  cases i <;>
    simp [acceptedState, startsEngine, acceptedEffect, startCompress, startFinal, startBlock, addLength, clearData]

/-- The commands that write M (R34). -/
theorem acceptedState_m (i : Instr) (s : State) :
    (acceptedState i s).m = s.m ∨ i ∈ [Instr.hmacIpad, .hmacOpad, .msgFromDigest, .zeroize] := by
  cases i <;>
    simp [acceptedState, startsEngine, acceptedEffect, startCompress, startFinal, startBlock, addLength, clearData]

/-- The commands that write K (R35). -/
theorem acceptedState_k (i : Instr) (s : State) :
    (acceptedState i s).k = s.k ∨ i ∈ [Instr.keyFromDigest, .zeroize] ∨ ∃ len, i = .keyPad len := by
  cases i <;>
    simp [acceptedState, startsEngine, acceptedEffect, startCompress, startFinal, startBlock, addLength, clearData]

/-- The commands that write D (R36). -/
theorem acceptedState_d (i : Instr) (s : State) : (acceptedState i s).d = s.d ∨ i ∈ [Instr.saveDigest, .zeroize] := by
  cases i <;>
    simp [acceptedState, startsEngine, acceptedEffect, startCompress, startFinal, startBlock, addLength, clearData]

/-- The commands that write the HOTP results (R37 to R40). -/
theorem acceptedState_hotp (i : Instr) (s : State) :
    (acceptedState i s).hotp = s.hotp ∨ i ∈ [Instr.hotpTrunc, .zeroize] := by
  cases i <;>
    simp [acceptedState, startsEngine, acceptedEffect, startCompress, startFinal, startBlock, addLength, clearData]

/-- No command touches INTEN, the pin, the read port or the agents outside the block. -/
theorem acceptedState_outside (i : Instr) (s : State) :
    (acceptedState i s).inten = s.inten ∧ (acceptedState i s).rstN = s.rstN ∧ (acceptedState i s).rdata = s.rdata ∧
    (acceptedState i s).host = s.host ∧ (acceptedState i s).turns = s.turns := by
  cases i <;>
    simp [acceptedState, startsEngine, acceptedEffect, startCompress, startFinal, startBlock, addLength, clearData]

/-- Raising an error clears no bit and does not touch DONE (R214). -/
theorem raise_keeps (kind : ErrorKind) (f : Status) :
    (f.raise kind).done = f.done ∧ (f.errBusy = true → (f.raise kind).errBusy = true) ∧
    (f.errOpcode = true → (f.raise kind).errOpcode = true) ∧ (f.errArg = true → (f.raise kind).errArg = true) ∧
    (f.errAccess = true → (f.raise kind).errAccess = true) ∧ (f.lenOvf = true → (f.raise kind).lenOvf = true) := by
  cases kind <;> simp [Status.raise]

end Sys2Proof.Machine
end

