-- ==== Sys2Proof/Laws/Bus.lean ====
section
/-! SUPPORT. What the register map and a bus access can do, said once. -/

namespace Sys2Proof.Machine

@[simp] theorem regAt_offset (r : Reg) : regAt r.offset = some r := by
  cases r
  case h i => revert i; decide
  case m i => revert i; decide
  case k i => revert i; decide
  case d i => revert i; decide
  all_goals decide

theorem offset_of_regAt {off : BitVec 8} {r : Reg} (h : regAt off = some r) : r.offset = off := by
  simpa using List.find?_some h

theorem offset_aligned (r : Reg) : r.offset.extractLsb' 0 2 = 0 := by
  cases r
  case h i => revert i; decide
  case m i => revert i; decide
  case k i => revert i; decide
  case d i => revert i; decide
  all_goals decide

@[simp] theorem readAccess_admitted (r : Reg) : (readAccess r).admitted = true := by
  simp [Access.admitted, readAccess, offset_aligned]

@[simp] theorem writeAccess_admitted (r : Reg) (v : Word) : (writeAccess r v).admitted = true := by
  simp [Access.admitted, writeAccess, offset_aligned]

theorem aligned_iff (off : BitVec 8) : off.extractLsb' 0 2 = 0 ↔ off.toNat % 4 = 0 := by
  simp [← BitVec.toNat_inj]

theorem admitted_eq_false_iff (a : Access) : a.admitted = false ↔ a.size ≠ .four ∨ a.offset.toNat % 4 ≠ 0 := by
  simp only [Access.admitted, Bool.and_eq_false_iff, beq_eq_false_iff_ne, ne_eq, aligned_iff]

theorem busAccess_while_reset {a : Access} {s : State} (h : s.rstN = false) : busAccess a s = .next (respond a 0 s) := by
  simp [busAccess, h]

theorem busAccess_refused {a : Access} {s : State} (h : s.rstN = true) (ha : a.admitted = false) :
    busAccess a s = .next (respond a 0 (raiseError .errAccess s)) := by
  simp [busAccess, h, ha]

theorem busAccess_reserved {a : Access} {s : State} (h : s.rstN = true) (ha : a.admitted = true)
    (hr : regAt a.offset = none) : busAccess a s = .next (respond a 0 (raiseError .errAccess s)) := by
  simp [busAccess, h, ha, hr]

theorem busAccess_read (r : Reg) {s : State} (h : s.rstN = true) :
    busAccess (readAccess r) s = .next { s with rdata := some (readReg r s) } := by
  simp [busAccess, h, readAccess, respond, Access.admitted, offset_aligned]

theorem busAccess_write (r : Reg) (v : Word) {s : State} (h : s.rstN = true) :
    busAccess (writeAccess r v) s = writeReg r v { s with rdata := none } := by
  simp [busAccess, h, writeAccess, respond, Access.admitted, offset_aligned]

theorem writeCmd_of_busy (c : Word) {s : State} (h : s.phase ≠ .idle) : writeCmd c s = .next (raiseError .errBusy s) := by
  simp [writeCmd, busy_eq_true h]

theorem writeCmd_of_error {c : Word} {e : DecodeError} {s : State} (h : s.phase = .idle) (hd : decode c = .error e) :
    writeCmd c s = .next (raiseError .errOpcode s) := by
  simp [writeCmd, busy_eq_false h, hd]

theorem writeCmd_of_ok {c : Word} {i : Instr} (s : State) (hd : decode c = .ok i) : writeCmd c s = exec i s := by
  by_cases h : s.phase = .idle
  · simp [writeCmd, busy_eq_false h, hd]
  · rw [writeCmd_of_busy c h, exec_of_busy i h]

theorem writeReg_cmd (c : Word) (s : State) : writeReg .cmd c s = writeCmd c s := by
  by_cases h : s.phase = .idle
  · simp [writeReg, Reg.busyLocked, Reg.readOnly, busy_eq_false h]
  · simp [writeReg, Reg.busyLocked, busy_eq_true h, writeCmd_of_busy c h]

/-- A register write inverted: refused because locked or read-only, stored, or a CMD write. -/
theorem writeReg_cases {r : Reg} {v : Word} {s t : State} (h : writeReg r v s = .next t) :
    (r.busyLocked = true ∧ s.phase ≠ .idle ∧ t = raiseError .errBusy s) ∨
    (r.readOnly = true ∧ t = raiseError .errAccess s) ∨
    (r ≠ .cmd ∧ r.readOnly = false ∧ (r.busyLocked = true → s.phase = .idle) ∧ t = storeReg r v s) ∨
    (r = .cmd ∧ s.phase = .idle ∧ (∃ e, decode v = .error e) ∧ t = raiseError .errOpcode s) ∨
    (r = .cmd ∧ s.phase = .idle ∧ ∃ i, decode v = .ok i ∧ exec i s = .next t) := by
  by_cases hr : r = .cmd
  · subst hr
    by_cases hb : s.phase = .idle
    · cases hd : decode v with
      | error e =>
        rw [writeReg_cmd, writeCmd_of_error hb hd] at h
        simp at h
        simp [Reg.readOnly, hb, h]
      | ok i =>
        rw [writeReg_cmd, writeCmd_of_ok s hd] at h
        simp [Reg.readOnly, hb, h]
    · rw [writeReg_cmd, writeCmd_of_busy v hb] at h
      simp at h
      simp [Reg.busyLocked, hb, h]
  · by_cases hb : s.phase = .idle
    · cases ho : r.readOnly <;> simp [writeReg, busy_eq_false hb, ho, hr] at h <;> simp [hr, hb, h]
    · cases hl : r.busyLocked <;> cases ho : r.readOnly <;>
        simp [writeReg, busy_eq_true hb, ho, hl, hr] at h <;> simp [hr, hb, h]

theorem writeReg_answers_next (r : Reg) (v : Word) (s : State) : ∃ t, writeReg r v s = .next t := by
  unfold writeReg
  split
  · exact ⟨_, rfl⟩
  split
  · exact ⟨_, rfl⟩
  split
  · by_cases h : s.phase = .idle
    · cases hd : decode v with
      | error e => exact ⟨_, writeCmd_of_error h hd⟩
      | ok i => rw [writeCmd_of_ok s hd]; exact exec_answers_next i s
    · exact ⟨_, writeCmd_of_busy v h⟩
  · exact ⟨_, rfl⟩

theorem busAccess_answers_next (a : Access) (s : State) : ∃ t, busAccess a s = .next t := by
  unfold busAccess
  split
  · exact ⟨_, rfl⟩
  split
  · exact ⟨_, rfl⟩
  split
  · exact ⟨_, rfl⟩
  split
  · exact writeReg_answers_next _ _ _
  · exact ⟨_, rfl⟩

/-- A bus access inverted: everything it can do to the state. -/
theorem busAccess_cases {a : Access} {s t : State} (h : busAccess a s = .next t) :
    (s.rstN = false ∧ t = respond a 0 s) ∨
    (s.rstN = true ∧ (a.admitted = false ∨ regAt a.offset = none) ∧ t = respond a 0 (raiseError .errAccess s)) ∨
    (s.rstN = true ∧ a.admitted = true ∧ a.write = false ∧ ∃ r, regAt a.offset = some r ∧ t = respond a (readReg r s) s) ∨
    (s.rstN = true ∧ a.admitted = true ∧ a.write = true ∧
      ∃ r, regAt a.offset = some r ∧ writeReg r a.wdata (respond a 0 s) = .next t) := by
  cases hn : s.rstN
  · rw [busAccess_while_reset hn] at h
    simp at h
    simp [h]
  · cases ha : a.admitted
    · rw [busAccess_refused hn ha] at h
      simp at h
      simp [h]
    · cases hr : regAt a.offset with
      | none =>
        rw [busAccess_reserved hn ha hr] at h
        simp at h
        simp [h]
      | some r =>
        cases hw : a.write <;> simp [busAccess, hn, ha, hr, hw] at h <;> simp [h]

/-- No register write touches the pin, the read port or the agents outside the block. -/
theorem writeReg_outside {r : Reg} {v : Word} {s t : State} (h : writeReg r v s = .next t) :
    t.rstN = s.rstN ∧ t.rdata = s.rdata ∧ t.host = s.host ∧ t.turns = s.turns := by
  rcases writeReg_cases h with ⟨_, _, rfl⟩ | ⟨_, rfl⟩ | ⟨_, _, _, rfl⟩ | ⟨_, _, _, rfl⟩ | ⟨_, _, i, _, hx⟩
  · exact ⟨rfl, rfl, rfl, rfl⟩
  · exact ⟨rfl, rfl, rfl, rfl⟩
  · cases r <;> exact ⟨rfl, rfl, rfl, rfl⟩
  · exact ⟨rfl, rfl, rfl, rfl⟩
  · rcases exec_cases hx with ⟨_, rfl⟩ | ⟨_, _, rfl⟩ | ⟨_, _, rfl⟩
    · exact ⟨rfl, rfl, rfl, rfl⟩
    · exact ⟨rfl, rfl, rfl, rfl⟩
    · exact (acceptedState_outside i s).2

/-- While the block is busy a bus access changes only STATUS, INTEN and the read port (R74, R75). -/
theorem busAccess_of_busy {a : Access} {s t : State} (hb : s.phase ≠ .idle) (h : busAccess a s = .next t) :
    ∃ status inten rdata, t = { s with status := status, inten := inten, rdata := rdata } := by
  rcases busAccess_cases h with ⟨_, rfl⟩ | ⟨_, _, rfl⟩ | ⟨_, _, _, r, _, rfl⟩ | ⟨_, _, _, r, _, hw⟩
  · exact ⟨s.status, s.inten, _, rfl⟩
  · exact ⟨_, s.inten, _, rfl⟩
  · exact ⟨s.status, s.inten, _, rfl⟩
  · rcases writeReg_cases hw with ⟨_, _, rfl⟩ | ⟨_, rfl⟩ | ⟨_, _, hl, rfl⟩ | ⟨_, hi, _⟩ | ⟨_, hi, _⟩
    · exact ⟨_, s.inten, _, rfl⟩
    · exact ⟨_, s.inten, _, rfl⟩
    · cases r with
      | status => exact ⟨_, s.inten, _, rfl⟩
      | inten => exact ⟨s.status, _, _, rfl⟩
      | mlen => exact absurd (hl rfl) hb
      | h i => exact absurd (hl rfl) hb
      | m i => exact absurd (hl rfl) hb
      | k i => exact absurd (hl rfl) hb
      | d i => exact absurd (hl rfl) hb
      | cmd => exact absurd (hl rfl) hb
      | _ => exact ⟨s.status, s.inten, _, rfl⟩
    · exact absurd hi hb
    · exact absurd hi hb

end Sys2Proof.Machine
end

