-- ==== Sys2Proof/Laws/Bytes.lean ====
section
/-! SUPPORT. The byte view of words and buffers (spec/00_scope.md R8): reading a byte after writing one, packing. -/

namespace Sys2Proof.Machine

/-- Byte q of a word whose byte r was replaced (R8). -/
theorem byte_replaceByte (x : Word) (v : Byte) {r q : Nat} (hr : r < 4) (hq : q < 4) :
    (replaceByte x r v).extractLsb' (24 - 8 * q) 8 = if q = r then v else x.extractLsb' (24 - 8 * q) 8 := by
  apply BitVec.eq_of_getLsbD_eq
  intro i hi
  interval_cases r <;> interval_cases q <;> interval_cases i <;> simp [replaceByte]

/-- Bit i of a packed word. -/
theorem getLsbD_packWord (b0 b1 b2 b3 : Byte) (i : Nat) :
    (packWord b0 b1 b2 b3).getLsbD i = if i < 8 then b3.getLsbD i else if i < 16 then b2.getLsbD (i - 8)
      else if i < 24 then b1.getLsbD (i - 16) else b0.getLsbD (i - 24) := by
  show (b0 ++ b1 ++ b2 ++ b3 : BitVec (8 + 8 + 8 + 8)).getLsbD i = _
  rw [BitVec.getLsbD_append, BitVec.getLsbD_append, BitVec.getLsbD_append]
  repeat' split
  all_goals first | omega | rfl

/-- Byte q of a packed word (R114). -/
theorem byte_packWord (b0 b1 b2 b3 : Byte) {q : Nat} (hq : q < 4) :
    (packWord b0 b1 b2 b3).extractLsb' (24 - 8 * q) 8 = [b0, b1, b2, b3].getD q 0 := by
  apply BitVec.eq_of_getLsbD_eq
  intro i hi
  rw [BitVec.getLsbD_extractLsb', getLsbD_packWord]
  interval_cases q <;> interval_cases i <;> simp

/-- Two words with the same four bytes are the same word. -/
theorem word_eq_of_bytes {x y : Word} (h : ∀ q, q < 4 → x.extractLsb' (24 - 8 * q) 8 = y.extractLsb' (24 - 8 * q) 8) :
    x = y := by
  apply BitVec.eq_of_getLsbD_eq
  intro i hi
  have hb := congrArg (·.getLsbD (i % 8)) (h (3 - i / 8) (by omega))
  have h1 : i % 8 < 8 := by omega
  have h2 : 24 - 8 * (3 - i / 8) + i % 8 = i := by omega
  simpa [BitVec.getLsbD_extractLsb', h1, h2] using hb

/-- Two buffers with the same bytes are the same buffer. -/
theorem buffer_eq_of_bytes {n : Nat} {x y : Vector Word n} (h : ∀ j, j < 4 * n → byteOf x j = byteOf y j) : x = y := by
  apply Vector.ext
  intro i hi
  apply word_eq_of_bytes
  intro q hq
  have hj := h (4 * i + q) (by omega)
  have h1 : (4 * i + q) / 4 = i := by omega
  have h2 : (4 * i + q) % 4 = q := by omega
  simpa [byteOf, h1, h2, hi] using hj

/-- A byte read after a byte written (R8). -/
theorem byteOf_setByte {n : Nat} (x : Vector Word n) (v : Byte) {i j : Nat} (hi : i < 4 * n) (hj : j < 4 * n) :
    byteOf (setByte x j v) i = if i = j then v else byteOf x i := by
  have hjn : j / 4 < n := by omega
  have hin : i / 4 < n := by omega
  unfold byteOf setByte
  by_cases hw : i / 4 = j / 4
  · rw [hw, Vector.getElem?_setIfInBounds_self_of_lt hjn, Option.getD_some, byte_replaceByte _ _ (by omega) (by omega)]
    have : i % 4 = j % 4 ↔ i = j := by omega
    simp [this]
  · have hne : i ≠ j := fun h => hw (by rw [h])
    rw [Vector.getElem?_setIfInBounds_ne (fun h => hw h.symm)]
    simp [hne]

/-- Byte j of a block made of bytes (R114). -/
theorem byteOf_blockOfBytes (b : Nat → Byte) {j : Nat} (hj : j < 64) : byteOf (blockOfBytes b) j = b j := by
  have h1 : j / 4 < 16 := by omega
  have h2 : j % 4 < 4 := by omega
  unfold byteOf blockOfBytes
  rw [Vector.getElem?_eq_getElem h1, Option.getD_some, Vector.getElem_ofFn, byte_packWord _ _ _ _ h2]
  obtain ⟨k, r, hr, rfl⟩ : ∃ k r, r < 4 ∧ j = 4 * k + r := ⟨j / 4, j % 4, by omega, by omega⟩
  have h3 : (4 * k + r) / 4 = k := by omega
  have h4 : (4 * k + r) % 4 = r := by omega
  simp only [h3, h4]
  interval_cases r <;> simp

/-- A fold of setbyte with zeros over the byte numbers from len on (R161). -/
theorem byteOf_foldl_setByte (k : Words16) (count : Nat) {len i : Nat} (h : len + count ≤ 64) (hi : i < 64) :
    byteOf ((List.range' len count).foldl (fun k j => setByte k j 0x00) k) i =
      if len ≤ i ∧ i < len + count then 0 else byteOf k i := by
  induction count generalizing len k with
  | zero => simp
  | succ c ih =>
    rw [List.range'_succ, List.foldl_cons, ih (setByte k len 0x00) (by omega), byteOf_setByte k 0x00 (by omega) (by omega)]
    by_cases hl : i = len
    · subst hl; simp
    · split <;> split <;> first | rfl | omega

/-- The bytes of the padded key (R161). -/
theorem byteOf_zeroKeyFrom (k : Words16) {len j : Nat} (hl : len ≤ 64) (hj : j < 64) :
    byteOf (zeroKeyFrom len k) j = if j < len then byteOf k j else 0 := by
  rw [zeroKeyFrom, byteOf_foldl_setByte k (64 - len) (by omega) hj]
  by_cases h : j < len
  · have : ¬ len ≤ j := by omega
    simp [h, this]
  · have h1 : len ≤ j := by omega
    have h2 : j < len + (64 - len) := by omega
    simp [h, h1, h2]

/-- The bytes of the first padding block (R125). -/
theorem byteOf_padBlock1 (m : Words16) (n : Nat) (bl : BitVec 64) {j : Nat} (hj : j < 64) :
    byteOf (padBlock1 m n bl) j = padByte1 m n bl j := byteOf_blockOfBytes _ hj

end Sys2Proof.Machine
end

