-- ==== Sys2Proof/Laws/Decode.lean ====
section
/-! SUPPORT. A command word and its three fields, and what it means for a word to match a row. -/

namespace Sys2Proof

/-- A word is its fields RSV, ARG, OP (R90). -/
theorem word_of_fields (c : Word) : c = rsvField c ++ (argField c ++ opField c : BitVec 15) := by
  apply BitVec.eq_of_getLsbD_eq
  intro i hi
  simp only [rsvField, argField, opField, BitVec.getLsbD_append, BitVec.getLsbD_extractLsb']
  by_cases h1 : i < 15
  · by_cases h2 : i < 8
    · simp [h1, h2]
    · have h3 : i - 8 < 7 := by omega
      have h4 : 8 + (i - 8) = i := by omega
      simp [h1, h2, h3, h4]
  · have h3 : i - 15 < 17 := by omega
    have h4 : 15 + (i - 15) = i := by omega
    simp [h1, h3, h4]

theorem opField_append (r : BitVec 17) (a : BitVec 7) (o : BitVec 8) : opField (r ++ (a ++ o : BitVec 15)) = o := by
  apply BitVec.eq_of_getLsbD_eq
  intro i hi
  simp only [opField, BitVec.getLsbD_extractLsb', BitVec.getLsbD_append]
  have : i < 15 := by omega
  simp [*]

theorem argField_append (r : BitVec 17) (a : BitVec 7) (o : BitVec 8) : argField (r ++ (a ++ o : BitVec 15)) = a := by
  apply BitVec.eq_of_getLsbD_eq
  intro i hi
  simp only [argField, BitVec.getLsbD_extractLsb', BitVec.getLsbD_append]
  have h1 : 8 + i < 15 := by omega
  simp [h1, hi]

theorem rsvField_append (r : BitVec 17) (a : BitVec 7) (o : BitVec 8) : rsvField (r ++ (a ++ o : BitVec 15)) = r := by
  apply BitVec.eq_of_getLsbD_eq
  intro i hi
  simp only [rsvField, BitVec.getLsbD_extractLsb', BitVec.getLsbD_append]
  have h1 : ¬ 15 + i < 15 := by omega
  simp [h1, hi]

/-- Two words with the same fields are the same word. -/
theorem word_ext {c c' : Word} (ho : opField c = opField c') (ha : argField c = argField c') (hr : rsvField c = rsvField c') :
    c = c' := by
  rw [word_of_fields c, word_of_fields c', ho, ha, hr]

/-- A word with its ARG field replaced by 0: the bits the mask 0xFFFF80FF keeps (R92). -/
theorem arg_mask (c : Word) : c &&& (0xFFFF80FF : Word) = rsvField c ++ ((0 : BitVec 7) ++ opField c : BitVec 15) := by
  apply BitVec.eq_of_getLsbD_eq
  intro i hi
  simp only [rsvField, opField, BitVec.getLsbD_append, BitVec.getLsbD_extractLsb', BitVec.getLsbD_and]
  rcases (by omega : i < 8 ∨ (8 ≤ i ∧ i < 15) ∨ 15 ≤ i) with h | h | h
  · have : i < 15 := by omega
    interval_cases i <;> simp
  · obtain ⟨h, h'⟩ := h
    interval_cases i <;> simp
  · interval_cases i <;> simp

/-- A row that takes no argument matches exactly its own word (R92). -/
theorem matches_full {r : OpRow} (h : r.mask = 0xFFFFFFFF) (c : Word) : r.matches c = true ↔ c = r.pattern := by
  have : c &&& (0xFFFFFFFF : Word) = c := BitVec.and_allOnes
  simp only [OpRow.matches, h, this, beq_iff_eq]

/-- A row that takes an argument matches exactly the words with its OP and RSV = 0 (R92). -/
theorem matches_arg {r : OpRow} (h : r.mask = 0xFFFF80FF) (ha : argField r.pattern = 0) (c : Word) :
    r.matches c = true ↔ opField c = opField r.pattern ∧ rsvField c = rsvField r.pattern := by
  simp only [OpRow.matches, h, beq_iff_eq, arg_mask]
  constructor
  · intro he
    rw [← he, opField_append, rsvField_append]
    simp
  · rintro ⟨ho, hr⟩
    rw [word_of_fields r.pattern, ho, hr, ha]

/-- A word that decodes matches a row, and is read as that row's command. -/
theorem row_of_decode {c : Word} {i} (h : decode c = .ok i) : ∃ r ∈ opcodeMap, r.matches c = true ∧ i = r.op.instr (argField c) := by
  unfold decode at h
  split at h
  · next r hr =>
    refine ⟨r, List.mem_of_find?_eq_some hr, by simpa using List.find?_some hr, ?_⟩
    simpa using h.symm
  · simp at h

/-- A word is refused by the decoder exactly when no row matches it (R93). -/
theorem decode_error_iff {c : Word}  : (∃ e, decode c = .error e) ↔ ∀ r ∈ opcodeMap, r.matches c = false := by
  unfold decode
  constructor
  · rintro ⟨e, h⟩
    split at h
    · simp at h
    · next hr => simpa using hr
  · intro h
    split
    · next r hr =>
      have hm : r.matches c = true := by simpa using List.find?_some hr
      rw [h r (List.mem_of_find?_eq_some hr)] at hm
      simp at hm
    · exact ⟨_, rfl⟩

/-- The word of a command with an argument has it as its ARG field (R92). -/
theorem word_with_arg (p : Word) (hp : argField p = 0) (hr : rsvField p = 0) (a : BitVec 7) :
    p ||| (a.setWidth 32 <<< 8) = (0 : BitVec 17) ++ (a ++ opField p : BitVec 15) := by
  conv => lhs; rw [word_of_fields p, hp, hr]
  apply BitVec.eq_of_getLsbD_eq
  intro i hi
  simp only [BitVec.getLsbD_append, BitVec.getLsbD_or, BitVec.getLsbD_shiftLeft, BitVec.getLsbD_setWidth]
  interval_cases i <;> simp

end Sys2Proof
end

