-- ==== Sys2Proof/Laws/Engine.lean ====
section
/-! SUPPORT. The engine's steps by phase, and the schedule as the engine's window sees it (spec/40_sha1_engine.md R113,
R116, R117). -/

namespace Sys2Proof.Machine

theorem engineStep_of_idle {s : State} (h : s.phase = .idle) : engineStep s = s := by simp [engineStep, h]

theorem engineStep_of_round {s : State} (h : s.phase = .round) : engineStep s = roundStep s := by simp [engineStep, h]

theorem engineStep_of_feed {s : State} (h : s.phase = .feed) : engineStep s = feedStep s := by simp [engineStep, h]

/-- A ROUND step before round 79 (R116). -/
theorem roundStep_of_lt {s : State} (h : s.t ≠ 79) : roundStep s =
    { s with work := roundWork s.t.toNat s.w[0] s.work, w := rotateWindow s.w, t := s.t + 1 } := by
  unfold roundStep
  rw [if_neg h]

/-- Round 79 goes to FEED (R116). -/
theorem roundStep_of_last {s : State} (h : s.t = 79) : roundStep s =
    { s with work := roundWork s.t.toNat s.w[0] s.work, w := rotateWindow s.w, phase := .feed } := by
  unfold roundStep
  rw [if_pos h]

/-- A FEED step with no second block pending ends the command (R117). -/
theorem feedStep_of_last {s : State} (h : s.pend2 = false) : feedStep s =
    { s with h := feedForward s.h s.work, phase := .idle, status := { s.status with done := true } } := by
  simp [feedStep, h, setDone]

/-- A FEED step with PEND2 = 1 starts the second padding block from the new H (R117). -/
theorem feedStep_of_pending {s : State} (h : s.pend2 = true) : feedStep s =
    startBlock (padBlock2 s.bitlen) { s with h := feedForward s.h s.work, pend2 := false } := by
  simp [feedStep, h]

/-- The rotation written as bitwise shifts is the rotation of the library (R7). -/
theorem rotl_eq_rotateLeft {n : Nat} (hn : n < 32) (x : Word) : rotl n x = x.rotateLeft n := by
  rw [BitVec.rotateLeft_def, Nat.mod_eq_of_lt hn]
  rfl

/-- Extending the schedule keeps the words it had. -/
theorem scheduleNewestFirst_shift (blk : Words16) (n j i : Nat) :
    (scheduleNewestFirst blk (n + j)).getD (i + j) 0 = (scheduleNewestFirst blk n).getD i 0 := by
  induction j with
  | zero => rfl
  | succ j ih =>
    rw [← ih]
    show (scheduleNewestFirst blk ((n + j) + 1)).getD ((i + j) + 1) 0 = _
    simp [scheduleNewestFirst]

/-- The last sixteen of the first 16 + n schedule words are W_n .. W_{n+15}. -/
theorem scheduleWord_add (blk : Words16) (n : Nat) {i : Nat} (hi : i < 16) :
    scheduleWord blk (n + i) = (scheduleNewestFirst blk n).getD (15 - i) 0 := by
  rw [← scheduleNewestFirst_shift blk n i (15 - i), Nat.sub_add_cancel (by omega)]
  rfl

/-- The first sixteen schedule words are the block (R113). -/
theorem scheduleWord_of_lt (blk : Words16) {i : Nat} (hi : i < 16) : scheduleWord blk i = blk[i] := by
  have h := scheduleWord_add blk 0 hi
  rw [Nat.zero_add] at h
  have h1 : 15 - i < 16 := by omega
  have h2 : 16 - 1 - (15 - i) = i := by omega
  rw [h, scheduleNewestFirst, List.getD_eq_getElem?_getD, List.getElem?_reverse (by simp; omega)]
  simp [h2, hi]

/-- The recurrence of the schedule (R113). -/
theorem scheduleWord_recurrence (blk : Words16) (n : Nat) :
    scheduleWord blk (n + 16) =
      rotl 1 (scheduleWord blk (n + 13) ^^^ scheduleWord blk (n + 8) ^^^ scheduleWord blk (n + 2) ^^^ scheduleWord blk n) := by
  have e : scheduleWord blk ((n + 1) + 15) = (scheduleNewestFirst blk (n + 1)).getD 0 0 := scheduleWord_add blk (n + 1) (by decide)
  have e0 : scheduleWord blk n = (scheduleNewestFirst blk n).getD 15 0 := rfl
  rw [show n + 16 = (n + 1) + 15 by omega, e, scheduleWord_add blk n (by decide), scheduleWord_add blk n (by decide),
    scheduleWord_add blk n (by decide), e0]
  rfl

/-- The window of the schedule words W_n .. W_{n+15}. -/
def scheduleWindow (blk : Words16) (n : Nat) : Words16 := Vector.ofFn fun i => scheduleWord blk (n + i)

/-- A block start loads the window of round 0 (R115). -/
theorem scheduleWindow_zero (blk : Words16) : scheduleWindow blk 0 = blk := by
  apply Vector.ext
  intro i hi
  simp [scheduleWindow, scheduleWord_of_lt blk hi]

/-- A ROUND step moves the window on by one word (R113, R116). -/
theorem rotateWindow_scheduleWindow (blk : Words16) (n : Nat) :
    rotateWindow (scheduleWindow blk n) = scheduleWindow blk (n + 1) := by
  apply Vector.ext
  intro i hi
  by_cases h : i < 15
  · simp [rotateWindow, scheduleWindow, h]
    congr 1
    omega
  · have h15 : i = 15 := by omega
    subst h15
    simp [rotateWindow, scheduleWindow, nextScheduleWord, ← scheduleWord_recurrence]

/-- An engine step changes no register but H and STATUS, and nothing outside the block (R212). -/
theorem engineStep_keeps (s : State) :
    (engineStep s).inten = s.inten ∧ (engineStep s).mlen = s.mlen ∧ (engineStep s).m = s.m ∧ (engineStep s).k = s.k ∧
    (engineStep s).d = s.d ∧ (engineStep s).hotp = s.hotp ∧ (engineStep s).rstN = s.rstN ∧ (engineStep s).rdata = s.rdata ∧
    (engineStep s).host = s.host ∧ (engineStep s).turns = s.turns := by
  cases h : s.phase
  · rw [engineStep_of_idle h]; simp
  · rw [engineStep_of_round h]; unfold roundStep; split <;> simp
  · rw [engineStep_of_feed h]
    cases hp : s.pend2
    · rw [feedStep_of_last hp]; simp
    · rw [feedStep_of_pending hp]; simp [startBlock]

/-- An engine step leaves STATUS as it was or sets DONE (R117, R218). -/
theorem engineStep_status (s : State) :
    (engineStep s).status = s.status ∨ (engineStep s).status = { s.status with done := true } := by
  cases h : s.phase
  · rw [engineStep_of_idle h]; simp
  · rw [engineStep_of_round h]; unfold roundStep; split <;> simp
  · rw [engineStep_of_feed h]
    cases hp : s.pend2
    · rw [feedStep_of_last hp]; simp
    · rw [feedStep_of_pending hp]; left; rfl

end Sys2Proof.Machine
end

