-- ==== Sys2Proof/Laws/Flags.lean ====
section
/-! SUPPORT. The bits of STATUS and INTEN as words (spec/10_state.md R23, R31). -/

namespace Sys2Proof.Machine

theorem getLsbD_flagBit (b : Bool) {k : Nat} (hk : k < 32) (i : Nat) : (flagBit b k).getLsbD i = (b && decide (i = k)) := by
  cases b
  · simp [flagBit]
  · simp only [flagBit, if_true, Bool.true_and, BitVec.getLsbD_shiftLeft, BitVec.getLsbD_one]
    by_cases h : i = k
    · subst h; simp [hk]
    · have : ¬ (k ≤ i ∧ i - k = 0) := by omega
      simp only [h, decide_false]
      simp
      omega

/-- Bit i of STATUS (R23). -/
theorem getLsbD_statusWord (s : State) (i : Nat) : s.statusWord.getLsbD i =
    ((s.busy && decide (i = 0)) || (s.status.done && decide (i = 1)) || (s.status.errBusy && decide (i = 2)) ||
      (s.status.errOpcode && decide (i = 3)) || (s.status.errArg && decide (i = 4)) || (s.status.errAccess && decide (i = 5)) ||
      (s.status.lenOvf && decide (i = 6))) := by
  simp only [State.statusWord, BitVec.getLsbD_or]
  rw [getLsbD_flagBit _ (by decide), getLsbD_flagBit _ (by decide), getLsbD_flagBit _ (by decide),
    getLsbD_flagBit _ (by decide), getLsbD_flagBit _ (by decide), getLsbD_flagBit _ (by decide), getLsbD_flagBit _ (by decide)]

/-- Bit i of INTEN (R31). -/
theorem getLsbD_intenWord (s : State) (i : Nat) :
    s.intenWord.getLsbD i = ((s.inten.doneIe && decide (i = 0)) || (s.inten.errIe && decide (i = 1))) := by
  simp only [State.intenWord, BitVec.getLsbD_or]
  rw [getLsbD_flagBit _ (by decide), getLsbD_flagBit _ (by decide)]

/-- STATUS[31:7] reads 0 (R23, R77). -/
theorem statusWord_lt (s : State) : s.statusWord.toNat < 2 ^ 7 := by
  apply Nat.lt_pow_two_of_testBit
  intro i hi
  rw [BitVec.testBit_toNat, getLsbD_statusWord]
  have : ¬ i = 0 ∧ ¬ i = 1 ∧ ¬ i = 2 ∧ ¬ i = 3 ∧ ¬ i = 4 ∧ ¬ i = 5 ∧ ¬ i = 6 := by omega
  simp [this]

/-- INTEN[31:2] reads 0 (R31, R77). -/
theorem intenWord_lt (s : State) : s.intenWord.toNat < 2 ^ 2 := by
  apply Nat.lt_pow_two_of_testBit
  intro i hi
  rw [BitVec.testBit_toNat, getLsbD_intenWord]
  have : ¬ i = 0 ∧ ¬ i = 1 := by omega
  simp [this]

/-- ERR_ANY is STATUS[6:2] != 0 (R23). -/
theorem errAny_eq (s : State) : s.errAny = (s.statusWord.extractLsb' 2 5 != 0) := by
  simp only [State.errAny, State.statusWord]
  generalize s.busy = b
  rcases s.status with ⟨b1, b2, b3, b4, b5, b6⟩
  revert b b1 b2 b3 b4 b5 b6
  decide

end Sys2Proof.Machine
end

