-- ==== Sys2Proof/Laws/Hotp.lean ====
section
/-! SUPPORT. The bits of the truncated value and the packed digits as numbers (spec/42_hotp.md R180, R182). -/

namespace Sys2Proof.Machine

theorem getLsbD_append5 (a b c d e : Word) (i : Nat) : (a ++ b ++ c ++ d ++ e : BitVec 160).getLsbD i =
    if i < 32 then e.getLsbD i else if i < 64 then d.getLsbD (i - 32) else if i < 96 then c.getLsbD (i - 64)
      else if i < 128 then b.getLsbD (i - 96) else a.getLsbD (i - 128) := by
  show (a ++ b ++ c ++ d ++ e : BitVec (32 + 32 + 32 + 32 + 32)).getLsbD i = _
  rw [BitVec.getLsbD_append, BitVec.getLsbD_append, BitVec.getLsbD_append, BitVec.getLsbD_append]
  repeat' split
  all_goals first | omega | rfl

set_option maxRecDepth 4000 in
/-- Byte j of a digest is byte j of the 160-bit string `D0 || D1 || D2 || D3 || D4` (R180). -/
theorem getLsbD_byteOf_digest (d : Words5) {j r : Nat} (hj : j < 20) (hr : r < 8) :
    (byteOf d j).getLsbD r = (d[0] ++ d[1] ++ d[2] ++ d[3] ++ d[4] : BitVec 160).getLsbD (152 - 8 * j + r) := by
  rw [getLsbD_append5]
  unfold byteOf
  have h5 : j / 4 < 5 := by omega
  rw [Vector.getElem?_eq_getElem h5, Option.getD_some, BitVec.getLsbD_extractLsb']
  simp only [hr, decide_true, Bool.true_and]
  rcases (by omega : j / 4 = 0 ∨ j / 4 = 1 ∨ j / 4 = 2 ∨ j / 4 = 3 ∨ j / 4 = 4) with h | h | h | h | h
  all_goals
    simp only [h]
    repeat' split
    all_goals first | omega | (congr 1; omega)

/-- Bit i of the truncated value (R180). -/
theorem getLsbD_truncValue (d : Words5) {i : Nat} (hi : i < 31) : (truncValue d).getLsbD i =
    (d[0] ++ d[1] ++ d[2] ++ d[3] ++ d[4] : BitVec 160).getLsbD (128 - 8 * (truncOffset d).toNat + i) := by
  have ho : (truncOffset d).toNat < 16 := (truncOffset d).isLt
  simp only [truncValue, BitVec.getLsbD_setWidth, hi, decide_true, Bool.true_and, getLsbD_packWord]
  repeat' split
  all_goals rw [getLsbD_byteOf_digest d (by omega) (by omega)]; congr 1; omega

/-- The packed digits as a number (R182). -/
theorem toNat_hotpBcd (c : Nat) : (hotpBcd c).toNat =
    (c / 100000 % 10) * 2 ^ 20 + (c / 10000 % 10) * 2 ^ 16 + (c / 1000 % 10) * 2 ^ 12 + (c / 100 % 10) * 2 ^ 8 +
      (c / 10 % 10) * 2 ^ 4 + c % 10 := by
  have join : ∀ a b : Nat, b < 16 → a <<< 4 ||| b = a * 16 + b := by
    intro a b h
    rw [← Nat.shiftLeft_add_eq_or_of_lt (i := 4) (by simpa using h), Nat.shiftLeft_eq]
  unfold hotpBcd hotpDigit
  simp only [BitVec.toNat_append, BitVec.toNat_ofNat]
  norm_num
  rw [join, join, join, join, join] <;> omega

/-- Digit k of the packed digits is decimal digit k of the code, most significant first (R182). -/
theorem digit_hotpBcd (c : Nat) {k : Nat} (hk : k < 6) :
    ((hotpBcd c).extractLsb' (20 - 4 * k) 4).toNat = c / 10 ^ (5 - k) % 10 := by
  rw [BitVec.extractLsb'_toNat, toNat_hotpBcd, Nat.shiftRight_eq_div_pow]
  have b0 : c / 100000 % 10 < 10 := Nat.mod_lt _ (by decide)
  have b1 : c / 10000 % 10 < 10 := Nat.mod_lt _ (by decide)
  have b2 : c / 1000 % 10 < 10 := Nat.mod_lt _ (by decide)
  have b3 : c / 100 % 10 < 10 := Nat.mod_lt _ (by decide)
  have b4 : c / 10 % 10 < 10 := Nat.mod_lt _ (by decide)
  have b5 : c % 10 < 10 := Nat.mod_lt _ (by decide)
  interval_cases k <;> norm_num
  all_goals
    generalize c / 100000 % 10 = d0 at *
    generalize c / 10000 % 10 = d1 at *
    generalize c / 1000 % 10 = d2 at *
    generalize c / 100 % 10 = d3 at *
    generalize c / 10 % 10 = d4 at *
    generalize c % 10 = d5 at *
    omega

/-- The code fits its field: HOTP_CODE is `P mod 1000000` (R180, R190). -/
theorem toNat_hotpResults_code (d : Words5) : (hotpResults d).code.toNat = hotpCode (truncValue d) := by
  have : hotpCode (truncValue d) < 1000000 := Nat.mod_lt _ (by decide)
  simp [hotpResults]
  omega

end Sys2Proof.Machine
end

