-- ==== Sys2Proof/Laws/PerInstr.lean ====
section
/-! SUPPORT. Families of statements about every command as syntax, one lemma per constructor. -/

namespace Sys2Proof.Laws.EncodedFields

/-- The fields of a command's own word (spec/30_encoding.md R90 to R92): OP is the opcode of its row, ARG its argument (0 where
it has none), RSV 0. -/
def Statement (i : Instr) : Prop :=
  opField (encode i) = opField i.opcode.pattern ∧ argField (encode i) = i.arg ∧ rsvField (encode i) = 0

theorem nop : Statement .nop := by unfold Statement; decide
theorem shaInit : Statement .shaInit := by unfold Statement; decide
theorem shaCompress : Statement .shaCompress := by unfold Statement; decide
theorem saveDigest : Statement .saveDigest := by unfold Statement; decide
theorem msgFromDigest : Statement .msgFromDigest := by unfold Statement; decide
theorem keyFromDigest : Statement .keyFromDigest := by unfold Statement; decide
theorem hmacIpad : Statement .hmacIpad := by unfold Statement; decide
theorem hmacOpad : Statement .hmacOpad := by unfold Statement; decide
theorem hotpTrunc : Statement .hotpTrunc := by unfold Statement; decide
theorem zeroize : Statement .zeroize := by unfold Statement; decide

theorem shaFinal (n : BitVec 7) : Statement (.shaFinal n) := by
  show opField (0x00000003 ||| (n.setWidth 32 <<< 8)) = 0x03 ∧ argField (0x00000003 ||| (n.setWidth 32 <<< 8)) = n ∧
    rsvField (0x00000003 ||| (n.setWidth 32 <<< 8)) = 0
  rw [word_with_arg _ (by decide) (by decide), opField_append, argField_append, rsvField_append]
  exact ⟨by decide, rfl, rfl⟩

theorem keyPad (len : BitVec 7) : Statement (.keyPad len) := by
  show opField (0x00000010 ||| (len.setWidth 32 <<< 8)) = 0x10 ∧ argField (0x00000010 ||| (len.setWidth 32 <<< 8)) = len ∧
    rsvField (0x00000010 ||| (len.setWidth 32 <<< 8)) = 0
  rw [word_with_arg _ (by decide) (by decide), opField_append, argField_append, rsvField_append]
  exact ⟨by decide, rfl, rfl⟩

end Sys2Proof.Laws.EncodedFields
end

