-- ==== Sys2Proof/Laws/Reference.lean ====
section
/-! SUPPORT. The bytes of the padded message (spec/40_sha1_engine.md R125). -/

namespace Sys2Proof.Machine

/-- Byte j of the padded message (R125). -/
theorem paddedMessage_getD (message : List Byte) (j : Nat) :
    (paddedMessage message).getD j 0 =
      if j < message.length then message.getD j 0
      else if j = message.length then 0x80
      else if j < message.length + 1 + zeroPadding message.length then 0
      else if j < message.length + 1 + zeroPadding message.length + 8 then
        lengthByte (BitVec.ofNat 64 (8 * message.length)) (j - (message.length + 1 + zeroPadding message.length))
      else 0 := by
  unfold paddedMessage
  simp only [List.getD_eq_getElem?_getD, List.getElem?_append, List.length_append, List.length_replicate, List.length_cons,
    List.length_nil]
  repeat' split
  all_goals first
    | omega
    | rfl
    | skip
  · have : j - message.length = 0 := by omega
    simp [this]
  · rw [List.getElem?_replicate]; split <;> rfl
  · rw [List.getElem?_map, List.getElem?_range (by omega)]; rfl
  · rw [List.getElem?_eq_none (by simp; omega)]; rfl

end Sys2Proof.Machine
end

