-- ==== Sys2Proof/Laws/Rounds.lean ====
section
/-! SUPPORT. A block from its start to its feed-forward, said once (spec/40_sha1_engine.md R115 to R119). -/

namespace Sys2Proof.Machine

theorem engineSteps_succ (n : Nat) (s : State) : engineSteps (n + 1) s = engineStep (engineSteps n s) := by
  induction n generalizing s with
  | zero => rfl
  | succ n ih => rw [engineSteps, ih]; rfl

theorem engineSteps_add (m n : Nat) (s : State) : engineSteps (m + n) s = engineSteps n (engineSteps m s) := by
  induction m generalizing s with
  | zero => rw [Nat.zero_add]; rfl
  | succ m ih => rw [Nat.add_right_comm, engineSteps, ih]; rfl

/-- The state after n <= 80 engine steps of a block: only W, the working registers, t and the phase have moved. -/
theorem engineSteps_startBlock (blk : Words16) (s : State) {n : Nat} (hn : n ≤ 80) :
    engineSteps n (startBlock blk s) =
      { s with
        w := scheduleWindow blk n
        work := workAfter s.h blk n
        t := BitVec.ofNat 7 (min n 79)
        phase := if n < 80 then .round else .feed } := by
  induction n with
  | zero => simp [engineSteps, scheduleWindow_zero, workAfter]; rfl
  | succ n ih =>
    rw [engineSteps_succ, ih (by omega)]
    have h80 : n < 80 := by omega
    have hm : min n 79 = n := by omega
    have htn : (BitVec.ofNat 7 n).toNat = n := by simp; omega
    have hw0 : (scheduleWindow blk n)[0] = scheduleWord blk n := by simp [scheduleWindow]
    rw [engineStep_of_round (by simp [h80])]
    by_cases h : n = 79
    · subst h
      rw [roundStep_of_last (by rfl)]
      simp [rotateWindow_scheduleWindow, workAfter]
      rw [hw0]
    · have hne : BitVec.ofNat 7 n ≠ 79 := by
        intro hh
        have := congrArg BitVec.toNat hh
        rw [htn] at this
        exact h (by simpa using this)
      rw [roundStep_of_lt (by simpa [hm] using hne)]
      have h80' : n + 1 < 80 := by omega
      have hm' : min (n + 1) 79 = n + 1 := by omega
      simp only [hm, hm', htn, rotateWindow_scheduleWindow, hw0, h80, h80', if_true]
      simp [workAfter, BitVec.ofNat_add]

/-- Before its 81st engine step a block leaves H and STATUS alone and keeps the engine busy. -/
theorem block_not_ended (blk : Words16) (s : State) {n : Nat} (hn : n < 81) :
    (engineSteps n (startBlock blk s)).phase ≠ .idle ∧ (engineSteps n (startBlock blk s)).h = s.h ∧
      (engineSteps n (startBlock blk s)).status = s.status := by
  rw [engineSteps_startBlock _ _ (by omega)]
  refine ⟨?_, rfl, rfl⟩
  show (if n < 80 then Phase.round else Phase.feed) ≠ _
  split <;> simp

/-- The 81st engine step of a last block (R117). -/
theorem block_ends (blk : Words16) {s : State} (hp : s.pend2 = false) :
    ∃ t w work, engineSteps 81 (startBlock blk s) =
      { s with
        h := compress s.h blk, phase := .idle, status := { s.status with done := true }
        t := t, w := w, work := work } := by
  rw [engineSteps_succ 80, engineSteps_startBlock _ _ (by decide), engineStep_of_feed (by rfl), feedStep_of_last (by exact hp)]
  exact ⟨_, _, _, rfl⟩

/-- The 81st engine step of a first padding block starts the second from the new chaining value (R117). -/
theorem block_starts_second (blk : Words16) {s : State} (hp : s.pend2 = true) :
    engineSteps 81 (startBlock blk s) =
      startBlock (padBlock2 s.bitlen) { s with h := compress s.h blk, pend2 := false } := by
  rw [engineSteps_succ 80, engineSteps_startBlock _ _ (by decide), engineStep_of_feed (by rfl),
    feedStep_of_pending (by exact hp)]
  rfl

end Sys2Proof.Machine
end

