-- ==== Sys2Proof/Laws/Step.lean ====
section
/-! SUPPORT. What one step can do, said once. -/

namespace Sys2Proof.Machine

/-- After its access a line of the host program changes at most the host's position. -/
theorem after_changes_host_only (op : HostOp) (s : State) : ∃ h, op.after s = { s with host := h } := by
  cases op with
  | wr r v => exact ⟨s.host, rfl⟩
  | rd r => exact ⟨s.host, rfl⟩
  | beq r mask value target =>
    show ∃ h, hostBranch mask value target s = { s with host := h }
    unfold hostBranch
    split
    · exact ⟨{ s.host with pc := target }, rfl⟩
    · exact ⟨s.host, rfl⟩

theorem hostTurn_answers_next (s : State) : ∃ t, hostTurn s = .next t := by
  unfold hostTurn
  split
  · exact ⟨_, rfl⟩
  · next op _ =>
    obtain ⟨t, ht⟩ := busAccess_answers_next op.access (hostGoto (s.host.pc + 1) s)
    exact ⟨_, by rw [ht]⟩

theorem takeTurn_answers_next (turn : Turn) (s : State) : ∃ t, takeTurn turn s = .next t := by
  cases turn with
  | host => exact hostTurn_answers_next s
  | bus a => exact busAccess_answers_next a s
  | engine => exact ⟨_, rfl⟩
  | assertReset => exact ⟨_, rfl⟩
  | releaseReset => exact ⟨_, rfl⟩

/-- A step inverted: an engine step, a change of the reset pin, nothing (the host has no line left), or one bus access made
at the state with only the agents outside the block moved on. -/
theorem step_cases {s t : State} (h : step s = .next t) :
    (nextTurn s = .engine ∧ t = engineTurn (dropTurn s)) ∨
    (nextTurn s = .assertReset ∧ t = holdInReset (dropTurn s)) ∨
    (nextTurn s = .releaseReset ∧ t = { dropTurn s with rstN := true }) ∨
    (nextTurn s = .host ∧ nextAccess s = none ∧ t = dropTurn s) ∨
    (nextTurn s ≠ .engine ∧ nextTurn s ≠ .assertReset ∧ ∃ a agent turns u agent', nextAccess s = some a ∧
      busAccess a { s with host := agent, turns := turns } = .next u ∧ t = { u with host := agent' }) := by
  unfold step at h
  cases hn : nextTurn s with
  | engine => rw [hn] at h; simp [takeTurn] at h; simp [h]
  | assertReset => rw [hn] at h; simp [takeTurn] at h; simp [h]
  | releaseReset => rw [hn] at h; simp [takeTurn] at h; simp [h]
  | bus a =>
    rw [hn] at h
    simp only [takeTurn] at h
    refine .inr (.inr (.inr (.inr ⟨by simp, by simp, a, s.host, s.turns.tail, t, t.host, ?_, h, rfl⟩)))
    simp [nextAccess, hn]
  | host =>
    rw [hn] at h
    simp only [takeTurn, hostTurn, dropTurn_host] at h
    cases hp : s.host.prog[s.host.pc]? with
    | none =>
      simp [hp] at h
      refine .inr (.inr (.inr (.inl ⟨rfl, ?_, h.symm⟩)))
      simp [nextAccess, hn, hp]
    | some op =>
      obtain ⟨u, hu⟩ := busAccess_answers_next op.access (hostGoto (s.host.pc + 1) (dropTurn s))
      simp [hp, hu] at h
      obtain ⟨agent', ha⟩ := after_changes_host_only op u
      refine .inr (.inr (.inr (.inr ⟨by simp, by simp, op.access, { s.host with pc := s.host.pc + 1 }, s.turns.tail, u, agent',
        ?_, hu, ?_⟩)))
      · simp [nextAccess, hn, hp]
      · rw [← h, ha]

end Sys2Proof.Machine
end

