-- ==== Sys2Proof/Tests/Slice0.lean ====
section
/-! SUPPORT. Small tests of the model. Expected values: the worked vectors of spec/95_test_vectors.md (named beside each test)
and words written out bit by bit from spec/30_encoding.md R90 to R92. The last part shows, for every obligation that has
hypotheses, a concrete state and operands that meet them. -/

namespace Sys2Proof.Tests

open Sys2Proof.Machine

set_option maxRecDepth 20000

/-! Well-formedness (R94): each check refuses an ill-formed term. -/

theorem test_wf_sha_final_63 : (Instr.shaFinal 63).wf = true := by decide
theorem test_wf_sha_final_64_refused : (Instr.shaFinal 64).wf = false := by decide
theorem test_wf_key_pad_64 : (Instr.keyPad 64).wf = true := by decide
theorem test_wf_key_pad_65_refused : (Instr.keyPad 65).wf = false := by decide

/-! Decoding: every command from a word written out as RSV(17) ARG(7) OP(8) (R90, R92). -/

/-- A word from its three fields, most significant first (R90). -/
def word (rsv : BitVec 17) (arg : BitVec 7) (op : BitVec 8) : Word := rsv ++ arg ++ op

theorem test_decode_nop : decode (word 0 0 0b00000000) = .ok .nop := by rfl
theorem test_decode_sha_init : decode (word 0 0 0b00000001) = .ok .shaInit := by rfl
theorem test_decode_sha_compress : decode (word 0 0 0b00000010) = .ok .shaCompress := by rfl
theorem test_decode_sha_final : decode (word 0 0b0110111 0b00000011) = .ok (.shaFinal 55) := by rfl
theorem test_decode_save_digest : decode (word 0 0 0b00000100) = .ok .saveDigest := by rfl
theorem test_decode_msg_from_digest : decode (word 0 0 0b00000101) = .ok .msgFromDigest := by rfl
theorem test_decode_key_pad : decode (word 0 0b1000000 0b00010000) = .ok (.keyPad 64) := by rfl
theorem test_decode_key_from_digest : decode (word 0 0 0b00010001) = .ok .keyFromDigest := by rfl
theorem test_decode_hmac_ipad : decode (word 0 0 0b00010010) = .ok .hmacIpad := by rfl
theorem test_decode_hmac_opad : decode (word 0 0 0b00010011) = .ok .hmacOpad := by rfl
theorem test_decode_hotp_trunc : decode (word 0 0 0b00100000) = .ok .hotpTrunc := by rfl
theorem test_decode_zeroize : decode (word 0 0 0b00110000) = .ok .zeroize := by rfl
theorem test_decode_unlisted_op : decode (word 0 0 0b11111111) = .error .unknownOpcode := by rfl
theorem test_decode_top_reserved_bit : decode 0x80000000 = .error .reservedBitsSet := by rfl
theorem test_decode_reserved_bit_on_argument_form : decode 0x00008303 = .error .reservedBitsSet := by rfl
theorem test_decode_argument_not_zero : decode 0x00000120 = .error .argumentNotZero := by rfl
theorem test_decode_table_word : decodeTableWord 32 0x00001403 = some (.shaFinal 20) := by rfl

/-! The commands, one step each. -/

/-- The state an outcome answers; the reset state where it answers none. -/
def after : Host.Outcome State Fault Refusal → State
  | .next s => s
  | .fault _ => State.reset
  | .refused _ => State.reset

/-- The state after the one step that makes the access. -/
def access (a : Access) (s : State) : State := after (step { s with turns := [.bus a] })

/-- The state after the one step that presents the command word. -/
def command (c : Word) (s : State) : State := access (cmdAccess c) s

/-- STATUS. -/
def statusOf (s : State) : Word := readReg .status s

/-- SHA_COMPRESS just accepted, from reset. -/
def compressing : State := command 0x00000002 State.reset

/-- Reset with SHA_INIT done and "abc" in M0 (SE2). -/
def abcLoaded : State := access (writeAccess (.m 0) 0x61626300) (command 0x00000001 State.reset)

/-- CT1. -/
theorem test_nop : statusOf (command 0x00000000 State.reset) = 0x00000002 ∧
    statusOf (command 0x00000100 State.reset) = 0x00000008 := by decide

/-- SE1. -/
theorem test_sha_init : (command 0x00000001 State.reset).h =
      #v[0x67452301, 0xEFCDAB89, 0x98BADCFE, 0x10325476, 0xC3D2E1F0] ∧
    statusOf (command 0x00000001 State.reset) = 0x00000002 := by decide

/-- SE7: MLEN wraps, LEN_OVF and BUSY are set. -/
theorem test_sha_compress_wraps : (command 0x00000002 { State.reset with mlen := 0xFFFFFFC0 }).mlen = 0 ∧
    statusOf (command 0x00000002 { State.reset with mlen := 0xFFFFFFC0 }) = 0x00000041 := by decide

/-- SE7: no wrap at 2^32 - 1. -/
theorem test_sha_compress_does_not_wrap :
    (command 0x00000002 { State.reset with mlen := 0xFFFFFFBF }).mlen = 0xFFFFFFFF ∧
    statusOf (command 0x00000002 { State.reset with mlen := 0xFFFFFFBF }) = 0x00000001 := by decide

/-- SE2: the initial window of "abc". -/
theorem test_sha_final_pads_abc : (command 0x00000303 abcLoaded).w =
      #v[0x61626380, 0, 0, 0, 0, 0, 0, 0, 0, 0, 0, 0, 0, 0, 0, 0x18] ∧ (command 0x00000303 abcLoaded).pend2 = false := by decide

/-- SE5: SHA_FINAL 56 needs a second block, BITLEN is latched. -/
theorem test_sha_final_56_needs_two_blocks : (command 0x00003803 State.reset).w[14] = 0x80000000 ∧
    (command 0x00003803 State.reset).w[15] = 0 ∧ (command 0x00003803 State.reset).pend2 = true ∧
    (command 0x00003803 State.reset).bitlen = 0x1C0 := by decide

/-- SE2: the first round of "abc". -/
theorem test_round_0 : (engineStep (command 0x00000303 abcLoaded)).work =
    ⟨0x0116FC33, 0x67452301, 0x7BF36AE2, 0x98BADCFE, 0x10325476⟩ := by decide

/-- SE2: the feed-forward of "abc". -/
theorem test_feed : (engineStep { State.reset with
      h := initialValue, phase := .feed, work := ⟨0x42541B35, 0x5738D5E1, 0x21834873, 0x681E6DF6, 0xD8FDF6AD⟩ }).h =
    #v[0xA9993E36, 0x4706816A, 0xBA3E2571, 0x7850C26C, 0x9CD0D89D] := by decide

/-- The digest of "abc" in H (KAT2). -/
def abcDigest : Words5 := #v[0xA9993E36, 0x4706816A, 0xBA3E2571, 0x7850C26C, 0x9CD0D89D]

/-- SE8. -/
theorem test_save_digest : (command 0x00000004 { State.reset with h := abcDigest }).d = abcDigest := by decide

/-- SE8: M5..M15 stay. -/
theorem test_msg_from_digest :
    (command 0x00000005 { State.reset with d := abcDigest, m := Vector.replicate 16 0x77777777 }).m =
      #v[0xA9993E36, 0x4706816A, 0xBA3E2571, 0x7850C26C, 0x9CD0D89D, 0x77777777, 0x77777777, 0x77777777, 0x77777777,
        0x77777777, 0x77777777, 0x77777777, 0x77777777, 0x77777777, 0x77777777, 0x77777777] := by decide

/-- KN1: a byte count inside a word. -/
theorem test_key_pad_5 : (command 0x00000510 { State.reset with k := Vector.replicate 16 0x11223344 }).k =
    #v[0x11223344, 0x11000000, 0, 0, 0, 0, 0, 0, 0, 0, 0, 0, 0, 0, 0, 0] := by decide

/-- KN1: KEY_PAD 65 is rejected, DONE stays. -/
theorem test_key_pad_65_rejected :
    statusOf (command 0x00004110 (command 0x00000010 State.reset)) = 0x00000012 := by decide

/-- KN2. -/
theorem test_key_from_digest : (command 0x00000011 { State.reset with
      h := #v[0x4CA0EF38, 0xF1794B28, 0xA8F8EE11, 0x0EE79D48, 0xCE13BE25], k := Vector.replicate 16 0xFFFFFFFF }).k =
    #v[0x4CA0EF38, 0xF1794B28, 0xA8F8EE11, 0x0EE79D48, 0xCE13BE25, 0, 0, 0, 0, 0, 0, 0, 0, 0, 0, 0] := by decide

/-- The key "Jefe" padded (KN3). -/
def jefe : State := { State.reset with k := #v[0x4A656665, 0, 0, 0, 0, 0, 0, 0, 0, 0, 0, 0, 0, 0, 0, 0] }

/-- KN3. -/
theorem test_hmac_ipad : (command 0x00000012 jefe).m[0] = 0x7C535053 ∧ (command 0x00000012 jefe).m[15] = 0x36363636 := by
  decide

/-- KN3. -/
theorem test_hmac_opad : (command 0x00000013 jefe).m[0] = 0x16393A39 ∧ (command 0x00000013 jefe).m[15] = 0x5C5C5C5C := by
  decide

/-- T1: the largest offset. -/
theorem test_hotp_trunc_t1 : (command 0x00000020 { State.reset with
      d := #v[0x00112233, 0x44556677, 0x8899AABB, 0xCCDDEEFF, 0x0123456F] }).hotp = ⟨15, 0x7F012345, 780997, 0x780997⟩ := by
  decide

/-- T2: the top bit is masked. -/
theorem test_hotp_trunc_t2 : (command 0x00000020 { State.reset with
      d := #v[0xFFFFFFFF, 0, 0, 0, 0xFFFFFFF0] }).hotp = ⟨0, 0x7FFFFFFF, 483647, 0x483647⟩ := by decide

/-- CT2. -/
theorem test_zeroize :
    (command 0x00000030 { jefe with d := abcDigest, mlen := 7, inten := ⟨true, true⟩, hotp := ⟨1, 2, 3, 4⟩ }) =
      { State.reset with inten := ⟨true, true⟩, status := ⟨true, false, false, false, false, false⟩ } := by decide

/-- X1, X2, X3, X5: only the first reason to reject is reported. -/
theorem test_rejections : statusOf (command 0x000000FF compressing) = 0x00000005 ∧
    statusOf (command 0x00000006 State.reset) = 0x00000008 ∧ statusOf (command 0x00008001 State.reset) = 0x00000008 ∧
    statusOf (command 0x00007F03 State.reset) = 0x00000010 := by decide

/-- X8 to X13: refused accesses, and the read of CMD. -/
theorem test_refused_accesses : statusOf (access (writeAccess .id 0x4010) State.reset) = 0x00000020 ∧
    (access ⟨0x14, .four, false, 0⟩ State.reset).rdata = some 0 ∧
    statusOf (access ⟨0x22, .four, false, 0⟩ State.reset) = 0x00000020 ∧
    statusOf (access ⟨0x20, .two, true, 5⟩ State.reset) = 0x00000020 ∧
    statusOf (access (readAccess .cmd) State.reset) = 0 := by decide

/-- X15 to X18: W1C while busy, INTEN, the busy lock, the interrupt line. -/
theorem test_status_and_interrupt : statusOf (access (writeAccess .status 0xFFFFFFFF) compressing) = 0x00000001 ∧
    readReg .inten (access (writeAccess .inten 0xFFFFFFFF) State.reset) = 0x00000003 ∧
    (access (writeAccess .mlen 7) compressing).mlen = 0x00000040 ∧
    (command 0x00000006 { State.reset with inten := ⟨false, true⟩ }).irq = true := by decide

/-- What withFetchWord places runs as the first command after reset. -/
theorem test_first_command_after_reset : step (State.reset.withFetchWord 32 0x00000001) =
    exec .shaInit { State.reset with rdata := none } := by rfl

/-- KAT2's program: SHA_INIT, LDM, SHA_FINAL 3, WAIT and RDH assemble to the accesses of P1, WAIT reads STATUS until BUSY is 0. -/
theorem test_assemble_digest_abc : assemble (digestLines (asciiBytes "abc")) = some [.wr .cmd 0x00000001,
    .wr (.m 0) 0x61626300, .wr .cmd 0x00000303, .rd .status, .beq .status 1 1 3,
    .rd (.h 0), .rd (.h 1), .rd (.h 2), .rd (.h 3), .rd (.h 4)] := by decide

/-! Witnesses: the hypotheses of the obligations can be met. -/

/-- A block in its first round. -/
def busyState : State := { State.reset with phase := .round }

/-- A block before the feed-forward of its last block. -/
def feedState : State := { State.reset with phase := .feed, t := 79 }

/-- A block before the feed-forward of a first padding block. -/
def feedPendingState : State := { feedState with pend2 := true }

theorem idle_reset : State.reset.phase = .idle := by decide
theorem busy_round : busyState.phase ≠ .idle := by decide

theorem witness_DecodedWordIsItsEncoding : decode 0x00007F03 = .ok (.shaFinal 127) := by rfl

theorem witness_OpcodeRowsAreDisjoint : (⟨.keyPad, 0x00000010, 0xFFFF80FF⟩ : OpRow) ∈ opcodeMap ∧
    OpRow.matches ⟨.keyPad, 0x00000010, 0xFFFF80FF⟩ 0x00007F10 = true := by decide

theorem witness_WordFailsToMatchExactlyWhen : State.reset.phase = .idle ∧ (∃ e, decode 0x000000FF = .error e) ∧
    (∃ e, decode 0xFFFF8000 = .error e) ∧ ∃ e, decode 0x00007F01 = .error e :=
  ⟨idle_reset, ⟨_, rfl⟩, ⟨_, rfl⟩, ⟨_, rfl⟩⟩

theorem witness_StepRunsTheDecodedCommand : decode 0x00000001 = .ok .shaInit ∧ State.reset.rstN = true ∧
    (withHostProgram [.wr .cmd 0x00000001] State.reset).rstN = true ∧
    (withHostProgram [.wr .cmd 0x00000001] State.reset).host.prog[(0 : Nat)]? = some (.wr .cmd 0x00000001) :=
  ⟨rfl, rfl, rfl, rfl⟩

theorem witness_EngineTakesItsStep : State.reset.rstN = true ∧ State.reset.phase = .idle ∧ busyState.rstN = true ∧
    busyState.phase ≠ .idle := by decide

theorem witness_EveryAcceptedCommandAnswersNext : (Instr.shaFinal 63).wf = true ∧ (Instr.keyPad 64).wf = true ∧
    Instr.nop.wf = true ∧ State.reset.phase = .idle := by decide

theorem witness_OnlyTheFirstRejectionIsReported : busyState.phase ≠ .idle ∧ State.reset.phase = .idle ∧
    State.reset.rstN = true ∧ (∃ e, decode 0x00000006 = .error e) ∧ decode 0x00004003 = .ok (.shaFinal 64) ∧
    (Instr.shaFinal 64).wf = false ∧ (⟨0x00, .one, false, 0⟩ : Access).size ≠ .four ∧
    (⟨0x22, .four, false, 0⟩ : Access).offset.toNat % 4 ≠ 0 :=
  ⟨by decide, rfl, rfl, ⟨_, rfl⟩, rfl, rfl, by decide, by decide⟩

theorem witness_ArgumentOutOfRangeSetsErrArg : State.reset.phase = .idle ∧ 63 < (64 : BitVec 7).toNat ∧
    63 < (127 : BitVec 7).toNat ∧ 64 < (65 : BitVec 7).toNat := by decide

/-- A flag that a W1C write clears, and a flag that a NOP leaves. -/
theorem witness_ErrorBitsAreSticky :
    let s : State := { State.reset with status := ⟨false, true, true, true, true, true⟩ }
    (∃ t, step { s with turns := [.bus (writeAccess .status 0x7C)] } = .next t) ∧
    (∃ t, step { s with turns := [.bus (cmdAccess 0)] } = .next t) ∧ s.status.errBusy = true ∧ s.status.errOpcode = true ∧
    s.status.errArg = true ∧ s.status.errAccess = true ∧ s.status.lenOvf = true :=
  ⟨⟨_, rfl⟩, ⟨_, rfl⟩, rfl, rfl, rfl, rfl, rfl⟩

theorem witness_AtMostOneEventBitPerStep : ∃ t, step { State.reset with turns := [.bus (cmdAccess 0x00000006)] } = .next t ∧
    State.reset.statusWord.getLsbD 3 = false ∧ t.statusWord.getLsbD 3 = true :=
  ⟨_, rfl, by decide, by decide⟩

theorem witness_BusyRisesAndFallsAsStated : State.reset.phase = .idle ∧
    (Instr.shaFinal 63 = .shaCompress ∨ ∃ n : BitVec 7, n.toNat ≤ 63 ∧ Instr.shaFinal 63 = .shaFinal n) ∧
    feedState.phase = .feed ∧ feedState.pend2 = false ∧
    (∃ t, step { State.reset with turns := [.bus (cmdAccess 0x00000002)] } = .next t ∧ t.phase ≠ .idle) ∧
    (∃ t, step { feedState with turns := [.engine] } = .next t ∧ t.phase = .idle) ∧
    ∃ t, step { busyState with turns := [.assertReset] } = .next t ∧ t.phase = .idle :=
  ⟨rfl, .inr ⟨63, by decide, rfl⟩, rfl, rfl, ⟨_, rfl, by decide⟩, ⟨_, rfl, by decide⟩, ⟨_, rfl, by decide⟩⟩

/-- The premises of the rule of a command without an argument, met: a busy state, an idle state, a word with its OP and ARG set,
a word with its OP and RSV set. -/
def CommandPremises (op : BitVec 8) : Prop :=
  busyState.phase ≠ .idle ∧ State.reset.phase = .idle ∧ opField (word 0 1 op) = op ∧ argField (word 0 1 op) ≠ 0 ∧
    opField (word 1 0 op) = op ∧ rsvField (word 1 0 op) ≠ 0

theorem witness_NopRule : CommandPremises 0x00 := by unfold CommandPremises; decide
theorem witness_ShaInitRule : CommandPremises 0x01 := by unfold CommandPremises; decide
theorem witness_ShaCompressRule : CommandPremises 0x02 := by unfold CommandPremises; decide
theorem witness_SaveDigestRule : CommandPremises 0x04 := by unfold CommandPremises; decide
theorem witness_MsgFromDigestRule : CommandPremises 0x05 := by unfold CommandPremises; decide
theorem witness_KeyFromDigestRule : CommandPremises 0x11 := by unfold CommandPremises; decide
theorem witness_HmacIpadRule : CommandPremises 0x12 := by unfold CommandPremises; decide
theorem witness_HmacOpadRule : CommandPremises 0x13 := by unfold CommandPremises; decide
theorem witness_HotpTruncRule : CommandPremises 0x20 := by unfold CommandPremises; decide
theorem witness_ZeroizeRule : CommandPremises 0x30 := by unfold CommandPremises; decide

theorem witness_KeyPadRule : busyState.phase ≠ .idle ∧ State.reset.phase = .idle ∧ opField 0x00008010 = 0x10 ∧
    rsvField 0x00008010 ≠ 0 ∧ 64 < (65 : BitVec 7).toNat ∧ (64 : BitVec 7).toNat ≤ 64 ∧ (0 : BitVec 7).toNat ≤ 64 := by decide

theorem witness_HotpResultsInRangeAndOfDAlone : State.reset.phase = .idle ∧ jefe.phase = .idle ∧ jefe.d = State.reset.d ∧
    ∃ t, exec .hotpTrunc jefe = .next t := ⟨rfl, rfl, rfl, _, rfl⟩

theorem witness_ShaFinalRule : busyState.phase ≠ .idle ∧ State.reset.phase = .idle ∧ opField 0x00008003 = 0x03 ∧
    rsvField 0x00008003 ≠ 0 ∧ 63 < (64 : BitVec 7).toNat ∧ (63 : BitVec 7).toNat ≤ 63 ∧ (55 : BitVec 7).toNat ≤ 63 ∧
    (56 : BitVec 7).toNat ≤ 63 ∧ (0 : BitVec 7).toNat ≤ 63 := by decide

/-- "abc" in M0, other bytes after it: one padding block. -/
theorem witness_PaddingIsThePaddedMessage :
    let message : List Byte := [0x61, 0x62, 0x63]
    message.length < 2 ^ 32 ∧ ∀ j, j < message.length % 64 →
      byteOf (zero16.set 0 0x616263FF) j = message.getD (64 * (message.length / 64) + j) 0 := by decide

/-- The shortest message whose padding needs the second block, 56 bytes (the third clause). -/
theorem witness_PaddingIsThePaddedMessage_second_block :
    let message : List Byte := List.replicate 56 0x61
    message.length < 2 ^ 32 ∧ 56 ≤ message.length % 64 ∧ ∀ j, j < message.length % 64 →
      byteOf (Vector.replicate 16 0x61616161) j = message.getD (64 * (message.length / 64) + j) 0 := by decide

theorem witness_ShaFinalIgnoresBytesPastN : State.reset.phase = .idle ∧ (3 : BitVec 7).toNat ≤ 63 ∧
    (∀ j, j < (3 : BitVec 7).toNat → byteOf (zero16.set 0 0x000000FF) j = byteOf State.reset.m j) ∧
    zero16.set 0 0x000000FF ≠ State.reset.m := by decide

/-- The digest of "abc" in H of one state and in the first 20 bytes of K of the other, K5 different. -/
theorem witness_LongKeyEqualsItsDigestAsKey :
    let s : State := { State.reset with h := abcDigest }
    let s' : State := { State.reset with k := #v[0xA9993E36, 0x4706816A, 0xBA3E2571, 0x7850C26C, 0x9CD0D89D, 0xFFFFFFFF,
      0, 0, 0, 0, 0, 0, 0, 0, 0, 0] }
    s.phase = .idle ∧ s'.phase = .idle ∧
      ∀ i : Fin 5, readReg (.k (i.castLE (by decide))) s' = readReg (.h i) s := by decide

theorem witness_KeyPadNormalizesTheKey :
    let key : List Byte := [0x0B, 0x0B, 0x0B]
    let s : State := { State.reset with k := (Vector.replicate 16 0xFFFFFFFF).set 0 0x0B0B0BFF }
    key.length ≤ 64 ∧ s.phase = .idle ∧ ∀ j, j < key.length → byteOf s.k j = key.getD j 0 := by decide

theorem witness_RoundStepRule : busyState.phase = .round ∧ busyState.t ≠ 79 ∧
    ({ busyState with t := 79 } : State).phase = .round ∧ ({ busyState with t := 79 } : State).t = 79 := by decide

theorem witness_FeedStepRule : feedState.phase = .feed ∧ feedState.pend2 = false ∧ feedPendingState.phase = .feed ∧
    feedPendingState.pend2 = true := by decide

theorem witness_WindowHoldsTheSchedule : 16 ≤ 16 ∧ 0 ≤ 80 ∧ 80 ≤ 80 := by decide

/-- The boundary offsets of the reserved ranges, and a register between two of them. -/
theorem witness_RegisterMapIsAsStated : Reg.offset (.m 15) = 0x7C ∧ Reg.offset (.k 15) = 0xBC ∧ regAt 0x00 = some .id ∧ regAt 0x14 = none ∧ regAt 0x1C = none ∧
    regAt 0x20 = some (.h 0) ∧ regAt 0x30 = some (.h 4) ∧ regAt 0x34 = none ∧ regAt 0x3C = none ∧ regAt 0x40 = some (.m 0) ∧
    regAt 0xD0 = some (.d 4) ∧ regAt 0xD4 = none ∧ regAt 0xDC = none ∧ regAt 0xE0 = some .hotpOffset ∧
    regAt 0xEC = some .hotpBcd ∧ regAt 0xF0 = none ∧ regAt 0xFC = none := by decide

theorem witness_NarrowOrMisalignedAccessRefused : State.reset.rstN = true ∧
    (⟨0x20, .two, true, 5⟩ : Access).size ≠ .four ∧ (⟨0xFF, .four, false, 0⟩ : Access).offset.toNat % 4 ≠ 0 := by decide

theorem witness_ReadsReturnTheRegister : State.reset.rstN = true ∧ (0x14 : BitVec 8).toNat % 4 = 0 ∧ regAt 0x14 = none ∧
    (0xFC : BitVec 8).toNat % 4 = 0 ∧ regAt 0xFC = none ∧ Reg.k 15 ≠ .status ∧ (∀ i, Reg.k 15 ≠ .h i) ∧
    busyState.phase ≠ .feed := by decide

theorem witness_BusyLockOnDataRegisters : busyState.rstN = true ∧ busyState.phase ≠ .idle ∧
    ((Reg.m 15) = .cmd ∨ (Reg.m 15) = .mlen ∨ (∃ i, Reg.m 15 = .h i) ∨ (∃ i, Reg.m 15 = .m i) ∨ (∃ i, Reg.m 15 = .k i) ∨
      ∃ i, Reg.m 15 = .d i) ∧ (Reg.status = .status ∨ Reg.status = .inten) :=
  ⟨rfl, by decide, .inr (.inr (.inr (.inl ⟨15, rfl⟩))), .inl rfl⟩

theorem witness_ReadOnlyAndReservedRefused : State.reset.rstN = true ∧
    (Reg.id = .id ∨ Reg.id = .hotpOffset ∨ Reg.id = .hotpTrunc ∨ Reg.id = .hotpCode ∨ Reg.id = .hotpBcd) ∧
    (0xF0 : BitVec 8).toNat % 4 = 0 ∧ regAt 0xF0 = none := by decide

theorem witness_WritesStoreTheRegister : State.reset.rstN = true ∧ State.reset.phase = .idle ∧
    (Reg.mlen = .mlen ∨ (∃ i, Reg.mlen = .h i) ∨ (∃ i, Reg.mlen = .m i) ∨ (∃ i, Reg.mlen = .k i) ∨ ∃ i, Reg.mlen = .d i) :=
  ⟨rfl, rfl, .inl rfl⟩

theorem witness_RegisterWritesAreIdempotent : Reg.status ≠ .cmd ∧ Reg.id ≠ .cmd := by decide

theorem witness_StatusWriteOneToClear : busyState.rstN = true ∧ State.reset.rstN = true := by decide

theorem witness_NoAccessDisturbsTheEngine : ∃ t, busyState.phase ≠ .idle ∧
    step { busyState with turns := [.bus (writeAccess (.h 0) 5)] } = .next t ∧
    nextTurn { busyState with turns := [.bus (writeAccess (.h 0) 5)] } ≠ .engine ∧
    nextTurn { busyState with turns := [.bus (writeAccess (.h 0) 5)] } ≠ .assertReset :=
  ⟨_, by decide, rfl, by decide, by decide⟩

theorem witness_InputsAreConstantWhileBusy : (∃ t, feedState.phase ≠ .idle ∧ step { feedState with turns := [.engine] } = .next t ∧
    nextTurn { feedState with turns := [.engine] } ≠ .assertReset) ∧
    Reg.m 0 ≠ .status ∧ Reg.m 0 ≠ .inten ∧ ∀ i, Reg.m 0 ≠ .h i :=
  ⟨⟨_, by decide, rfl, by decide⟩, by decide, by decide, by decide⟩

/-- One step that changes H, M, K, D or the HOTP results each. -/
theorem witness_OnlyTheNamedStepsChangeABuffer :
    (∃ t, step { State.reset with turns := [.bus (cmdAccess 0x00000001)] } = .next t ∧ t.h ≠ State.reset.h) ∧
    (∃ t, step { jefe with turns := [.bus (cmdAccess 0x00000012)] } = .next t ∧ t.m ≠ jefe.m) ∧
    (∃ t, step { jefe with turns := [.bus (cmdAccess 0x00000110)] } = .next t ∧ t.k ≠ jefe.k) ∧
    (∃ t, step { State.reset with h := abcDigest, turns := [.bus (cmdAccess 0x00000004)] } = .next t ∧ t.d ≠ State.reset.d) ∧
    (∃ t, step { State.reset with d := abcDigest, turns := [.bus (cmdAccess 0x00000020)] } = .next t ∧
      t.hotp ≠ State.reset.hotp) :=
  ⟨⟨_, rfl, by decide⟩, ⟨_, rfl, by decide⟩, ⟨_, rfl, by decide⟩, ⟨_, rfl, by decide⟩, ⟨_, rfl, by decide⟩⟩

/-- The machine in the middle of "abc" meets the invariant and steps. -/
theorem witness_EveryStepKeepsTheInvariant :
    let s : State := { State.reset with phase := .round, t := 40, mlen := 56, bitlen := 448, pend2 := true }
    s.Inv ∧ ∃ t, step s = .next t :=
  ⟨⟨by decide, by decide, by decide, by decide, by decide, by decide, by decide, fun h => absurd h (by decide)⟩, ⟨_, rfl⟩⟩

/-- A block just started, with 162 engine turns pending. -/
theorem witness_BusyEndsWithin162EngineSteps :
    let s : State := { State.reset with phase := .round, turns := List.replicate 162 .engine }
    s.Inv ∧ s.rstN = true ∧ .assertReset ∉ s.turns ∧ 162 ≤ s.turns.count .engine ∧ s.phase ≠ .idle :=
  ⟨⟨by decide, by decide, by decide, by decide, by decide, by decide, by decide, fun h => absurd h (by decide)⟩, rfl, by decide, by decide,
    by decide⟩

theorem witness_UnspecifiedValuesAreUnobservable : State.reset.phase = .idle := idle_reset

theorem witness_ResetOverridesEverything : ({ busyState with rstN := false } : State).rstN = false := rfl

theorem witness_ResetStateIsAsStated : Reg.cmd ≠ .id := by decide

/-- A load of 65 bytes, which has no expansion, and one of 5 bytes, which writes two words. -/
theorem witness_LoadsPackBytesBigEndian :
    ((HostLine.ldm (List.replicate 65 0) = .ldm (List.replicate 65 0) ∧ Reg.m = Reg.m) ∧ 64 < (List.replicate 65 (0 : Byte)).length) ∧
    (HostLine.ldk [1, 2, 3, 4, 5] = .ldk [1, 2, 3, 4, 5] ∧ Reg.k = Reg.k) ∧ [1, 2, 3, 4, (5 : Byte)].length ≤ 64 ∧
    (HostLine.ldk [1, 2, 3, 4, 5]).expand = some [.wr (.k 0) 0x01020304, .wr (.k 1) 0x05000000] :=
  ⟨⟨⟨rfl, rfl⟩, by decide⟩, ⟨rfl, rfl⟩, by decide, by decide⟩

end Sys2Proof.Tests
end

section
/-! What the platform's address decode answers (spec/00_scope.md R6, spec/20_memory.md R71). -/

namespace Sys2Proof.Machine

theorem base_aligned : Config.base % 0x100 = 0 := Nat.mul_mod_right 0x100 Config.basePage

/-- Inside the window the decode is the offset itself, whatever BASE is. -/
@[simp] theorem windowOffset_base_add (off : BitVec 8) : windowOffset (Config.base + off.toNat) = some off := by
  have inWindow : Config.base ≤ Config.base + off.toNat ∧ Config.base + off.toNat < Config.base + 0x100 :=
    ⟨Nat.le_add_right _ _, Nat.add_lt_add_left off.isLt _⟩
  rw [windowOffset, if_pos inWindow, Nat.add_sub_cancel_left, BitVec.ofNat_toNat, BitVec.setWidth_eq]

@[simp] theorem windowOffset_address (r : Reg) : windowOffset r.address = some r.offset :=
  windowOffset_base_add r.offset

theorem windowOffset_eq_none_iff (addr : Nat) :
    windowOffset addr = none ↔ addr < Config.base ∨ Config.base + 0xFF < addr := by
  have outside : windowOffset addr = none ↔ ¬ (Config.base ≤ addr ∧ addr < Config.base + 0x100) := by
    simp [windowOffset]
  rw [outside]
  omega

/-- Settles O37: the decode undoes `BASE + offset`, the register map finds the register there, and the two bounds of the
decode are those of the window. -/
theorem windowDecodesForEveryBase : Obligations.WindowDecodesForEveryBase := by
  refine ⟨base_aligned, fun r => ?_, windowOffset_eq_none_iff⟩
  calc (windowOffset r.address).bind regAt
      _ = regAt r.offset := by rw [windowOffset_address, Option.bind_some]
      _ = some r := regAt_offset r

end Sys2Proof.Machine
end

section
/-! The effect of one step on the block, said once for every agent (spec/20_memory.md R80): each whole-machine proof below
splits these seven cases and never a turn, an access or a register write. -/

namespace Sys2Proof.Machine

/-- The state with another read port and other agents: what an access moves besides the block's registers. -/
def State.withOutside (s : State) (rdata : Option Word) (host : HostAgent) (turns : List Turn) : State :=
  { s with rdata := rdata, host := host, turns := turns }

/-- The state u has the registers and the sequencer that the next step of s leaves. -/
inductive StepEffect (s : State) : State → Prop
  /-- nothing: a read, an access while `rst_n` is low, the turn of an agent that has no step -/
  | quiet : StepEffect s s
  /-- one engine step (R80) -/
  | engine : nextTurn s = .engine → s.rstN = true → StepEffect s (engineStep s)
  /-- `rst_n` sampled low (R250) -/
  | reset : nextTurn s = .assertReset → StepEffect s (holdInReset s)
  /-- `rst_n` released (R250) -/
  | release : StepEffect s { s with rstN := true }
  /-- a refused access or command (R214) -/
  | raise (kind : ErrorKind) : s.rstN = true → StepEffect s (raiseError kind s)
  /-- a performed write of a register other than CMD (R78) -/
  | store (r : Reg) (v : Word) : nextWrites r v s → r ≠ .cmd → r.readOnly = false →
      (r.busyLocked = true → s.phase = .idle) → StepEffect s (storeReg r v s)
  /-- an accepted command (R210) -/
  | command (c : Word) (i : Instr) : nextWrites .cmd c s → s.phase = .idle → decode c = .ok i → i.wf = true →
      StepEffect s (acceptedState i s)

theorem engineStep_withOutside (s : State) (rdata : Option Word) (host : HostAgent) (turns : List Turn) :
    engineStep (s.withOutside rdata host turns) = (engineStep s).withOutside rdata host turns := by
  let s' := s.withOutside rdata host turns
  cases hp : s.phase
  case idle => rw [engineStep_of_idle hp, engineStep_of_idle (s := s') hp]
  case round =>
    rw [engineStep_of_round hp, engineStep_of_round (s := s') hp]
    by_cases ht : s.t = 79
    · rw [roundStep_of_last ht, roundStep_of_last (s := s') ht]; rfl
    · rw [roundStep_of_lt ht, roundStep_of_lt (s := s') ht]; rfl
  case feed =>
    rw [engineStep_of_feed hp, engineStep_of_feed (s := s') hp]
    cases h2 : s.pend2
    · rw [feedStep_of_last h2, feedStep_of_last (s := s') h2]; rfl
    · rw [feedStep_of_pending h2, feedStep_of_pending (s := s') h2]; rfl

theorem storeReg_withOutside (r : Reg) (v : Word) (s : State) (rdata : Option Word) (host : HostAgent)
    (turns : List Turn) :
    storeReg r v (s.withOutside rdata host turns) = (storeReg r v s).withOutside rdata host turns := by
  cases r <;> rfl

theorem acceptedState_withOutside (i : Instr) (s : State) (rdata : Option Word) (host : HostAgent)
    (turns : List Turn) :
    acceptedState i (s.withOutside rdata host turns) = (acceptedState i s).withOutside rdata host turns := by
  cases i <;> rfl

/-- The effect of the access a step makes; where the agents stand does not matter to it. -/
theorem busAccess_effect {a : Access} {s u : State} {rdata : Option Word} {host : HostAgent} {turns : List Turn}
    (ha : nextAccess s = some a) (h : busAccess a (s.withOutside rdata host turns) = .next u) :
    ∃ v rdata' host' turns', StepEffect s v ∧ u = v.withOutside rdata' host' turns' := by
  rcases busAccess_cases h with ⟨_, rfl⟩ | ⟨hn, _, rfl⟩ | ⟨_, _, _, r, _, rfl⟩ | ⟨hn, hadm, hwr, r, hr, hw⟩
  · exact ⟨s, _, _, _, .quiet, rfl⟩
  · exact ⟨_, _, _, _, .raise .errAccess hn, rfl⟩
  · exact ⟨s, _, _, _, .quiet, rfl⟩
  have hwrites : nextWrites r a.wdata s := ⟨hn, a, ha, hadm, hwr, hr, rfl⟩
  rcases writeReg_cases hw with ⟨_, _, rfl⟩ | ⟨_, rfl⟩ | ⟨hc, ho, hl, rfl⟩ | ⟨_, _, _, rfl⟩ | ⟨rfl, _, i, hd, hx⟩
  · exact ⟨_, _, _, _, .raise .errBusy hn, rfl⟩
  · exact ⟨_, _, _, _, .raise .errAccess hn, rfl⟩
  · exact ⟨_, _, _, _, .store r a.wdata hwrites hc ho hl, storeReg_withOutside r a.wdata s _ _ _⟩
  · exact ⟨_, _, _, _, .raise .errOpcode hn, rfl⟩
  rcases exec_cases hx with ⟨_, rfl⟩ | ⟨_, _, rfl⟩ | ⟨hi, hwf, rfl⟩
  · exact ⟨_, _, _, _, .raise .errBusy hn, rfl⟩
  · exact ⟨_, _, _, _, .raise .errArg hn, rfl⟩
  · exact ⟨_, _, _, _, .command a.wdata i hwrites hi hd hwf, acceptedState_withOutside i s _ _ _⟩

/-- Every step leaves the block as one of the seven effects does. -/
theorem step_effect {s t : State} (h : step s = .next t) :
    ∃ u rdata host turns, StepEffect s u ∧ t = u.withOutside rdata host turns := by
  rcases step_cases h with ⟨hn, rfl⟩ | ⟨hn, rfl⟩ | ⟨hn, rfl⟩ | ⟨_, _, rfl⟩ |
    ⟨_, _, a, agent, turns, u, agent', ha, hb, rfl⟩
  · by_cases hr : s.rstN = true
    · refine ⟨engineStep s, s.rdata, s.host, s.turns.tail, .engine hn hr, ?_⟩
      rw [engineTurn, dropTurn_rstN, if_pos hr]
      exact engineStep_withOutside s s.rdata s.host s.turns.tail
    · refine ⟨s, s.rdata, s.host, s.turns.tail, .quiet, ?_⟩
      rw [engineTurn, dropTurn_rstN, if_neg hr]
      rfl
  · exact ⟨_, _, _, _, .reset hn, rfl⟩
  · exact ⟨_, _, _, _, .release, rfl⟩
  · exact ⟨s, _, _, _, .quiet, rfl⟩
  · obtain ⟨v, rdata', host', turns', he, rfl⟩ := busAccess_effect (rdata := s.rdata) ha hb
    exact ⟨v, rdata', agent', turns', he, rfl⟩

/-- A value read off the block's data and sequencer, so of no flag, pin or agent, differs after a step other than a reset
only as an engine step, a performed register write or an accepted command leaves it. -/
theorem step_changes {α : Type} (f : State → α) {s t : State}
    (hf : ∀ (s : State) status rstN rdata host turns,
      f { s with status := status, rstN := rstN, rdata := rdata, host := host, turns := turns } = f s)
    (h : step s = .next t) (hr : nextTurn s ≠ .assertReset) (hne : f t ≠ f s) :
    (nextTurn s = .engine ∧ f t = f (engineStep s)) ∨
    (∃ r v, nextWrites r v s ∧ (r.busyLocked = true → s.phase = .idle) ∧ f t = f (storeReg r v s)) ∨
    (∃ c i, nextWrites .cmd c s ∧ s.phase = .idle ∧ decode c = .ok i ∧ i.wf = true ∧ f t = f (acceptedState i s)) := by
  obtain ⟨u, rdata, host, turns, he, rfl⟩ := step_effect h
  have hu : f (u.withOutside rdata host turns) = f u := hf u u.status u.rstN rdata host turns
  cases he with
  | quiet => exact absurd hu hne
  | engine hn _ => exact .inl ⟨hn, hu⟩
  | reset hn => exact absurd hn hr
  | release => exact absurd (hu.trans (hf s s.status true s.rdata s.host s.turns)) hne
  | raise kind _ => exact absurd (hu.trans (hf s (s.status.raise kind) s.rstN s.rdata s.host s.turns)) hne
  | store r v hw _ _ hl => exact .inr (.inl ⟨r, v, hw, hl, hu⟩)
  | command c i hw hi hd hwf => exact .inr (.inr ⟨c, i, hw, hi, hd, hwf, hu⟩)

end Sys2Proof.Machine
end

section
/-! What a performed register write and an engine step leave unchanged, field by field (spec/20_memory.md R78,
spec/40_sha1_engine.md R116, R117). -/

namespace Sys2Proof.Machine

theorem storeReg_h (r : Reg) (v : Word) (s : State) : (storeReg r v s).h = s.h ∨ ∃ i, r = .h i := by
  cases r <;> simp [storeReg]

theorem storeReg_m (r : Reg) (v : Word) (s : State) : (storeReg r v s).m = s.m ∨ ∃ i, r = .m i := by
  cases r <;> simp [storeReg]

theorem storeReg_k (r : Reg) (v : Word) (s : State) : (storeReg r v s).k = s.k ∨ ∃ i, r = .k i := by
  cases r <;> simp [storeReg]

theorem storeReg_d (r : Reg) (v : Word) (s : State) : (storeReg r v s).d = s.d ∨ ∃ i, r = .d i := by
  cases r <;> simp [storeReg]

@[simp] theorem storeReg_hotp (r : Reg) (v : Word) (s : State) : (storeReg r v s).hotp = s.hotp := by
  cases r <;> rfl

@[simp] theorem storeReg_phase (r : Reg) (v : Word) (s : State) : (storeReg r v s).phase = s.phase := by
  cases r <;> rfl

@[simp] theorem storeReg_t (r : Reg) (v : Word) (s : State) : (storeReg r v s).t = s.t := by
  cases r <;> rfl

@[simp] theorem storeReg_pend2 (r : Reg) (v : Word) (s : State) : (storeReg r v s).pend2 = s.pend2 := by
  cases r <;> rfl

@[simp] theorem storeReg_bitlen (r : Reg) (v : Word) (s : State) : (storeReg r v s).bitlen = s.bitlen := by
  cases r <;> rfl

@[simp] theorem storeReg_rstN (r : Reg) (v : Word) (s : State) : (storeReg r v s).rstN = s.rstN := by
  cases r <;> rfl

/-- A write to a register that is not busy-locked leaves MLEN (R75). -/
theorem storeReg_mlen (r : Reg) (v : Word) (s : State) : (storeReg r v s).mlen = s.mlen ∨ r.busyLocked = true := by
  cases r <;> simp [storeReg, Reg.busyLocked]

/-- STATUS is written by W1C and by nothing else a register write does (R23). -/
theorem storeReg_status (r : Reg) (v : Word) (s : State) :
    (storeReg r v s).status = s.status ∨ (r = .status ∧ (storeReg r v s).status = s.status.w1c v) := by
  cases r <;> simp [storeReg]

/-- The engine writes H only in a FEED step (R117). -/
theorem engineStep_h {s : State} (hp : s.phase ≠ .feed) : (engineStep s).h = s.h := by
  cases h : s.phase
  case idle => rw [engineStep_of_idle h]
  case round => rw [engineStep_of_round h]; unfold roundStep; split <;> rfl
  case feed => exact absurd h hp

/-- The engine leaves phase IDLE only by the feed-forward of a last block (R24, R117). -/
theorem engineStep_phase_eq_idle {s : State} (hb : s.phase ≠ .idle) (h : (engineStep s).phase = .idle) :
    s.phase = .feed ∧ s.pend2 = false := by
  cases hp : s.phase
  case idle => exact absurd hp hb
  case round =>
    rw [engineStep_of_round hp] at h
    by_cases ht : s.t = 79
    · rw [roundStep_of_last ht] at h; simp at h
    · rw [roundStep_of_lt ht] at h; simp [hp] at h
  case feed =>
    rw [engineStep_of_feed hp] at h
    cases h2 : s.pend2
    · exact ⟨rfl, rfl⟩
    · rw [feedStep_of_pending h2] at h; simp at h

end Sys2Proof.Machine
end

section
/-! Who changes a buffer (spec/10_state.md R33 to R40). -/

namespace Sys2Proof.Machine

/-- `step_changes` for a value the engine does not write: a register write or a command made the difference. -/
theorem step_changes_of_engineStep_eq {α : Type} (f : State → α) {s t : State}
    (hf : ∀ (s : State) status rstN rdata host turns,
      f { s with status := status, rstN := rstN, rdata := rdata, host := host, turns := turns } = f s)
    (he : f (engineStep s) = f s) (h : step s = .next t) (hr : nextTurn s ≠ .assertReset) (hne : f t ≠ f s) :
    (∃ r v, nextWrites r v s ∧ (r.busyLocked = true → s.phase = .idle) ∧ f t = f (storeReg r v s)) ∨
    (∃ c i, nextWrites .cmd c s ∧ s.phase = .idle ∧ decode c = .ok i ∧ i.wf = true ∧ f t = f (acceptedState i s)) :=
  (step_changes f hf h hr hne).resolve_left fun ⟨_, ht⟩ => hne (ht.trans he)

/-- Settles O48: a buffer that differs was changed by the engine, by a register write or by a command (`step_changes`), and
each of the three names the buffers it writes. -/
theorem onlyTheNamedStepsChangeABuffer : Obligations.OnlyTheNamedStepsChangeABuffer := by
  intro s t hs hr byCommand
  obtain ⟨_, _, hm, hk, hd, hhotp, _⟩ := engineStep_keeps s
  refine ⟨fun hne => ?_, fun hne => ?_, fun hne => ?_, fun hne => ?_, fun hne => ?_⟩
  · rcases step_changes State.h (fun _ _ _ _ _ _ => rfl) hs hr hne with
      ⟨hn, he⟩ | ⟨r, v, hw, hl, he⟩ | ⟨c, i, hw, hi, hdec, _, he⟩
    · exact .inl ⟨hn, by_contra fun hp => hne (he.trans (engineStep_h hp))⟩
    · obtain ⟨j, rfl⟩ := (storeReg_h r v s).resolve_left (he ▸ hne)
      exact .inr (.inr ⟨j, v, hw, hl rfl⟩)
    · exact .inr (.inl ⟨c, hw, hi, i, (acceptedState_h i s).resolve_left (he ▸ hne), hdec⟩)
  · rcases step_changes_of_engineStep_eq State.m (fun _ _ _ _ _ _ => rfl) hm hs hr hne with
      ⟨r, v, hw, hl, he⟩ | ⟨c, i, hw, hi, hdec, _, he⟩
    · obtain ⟨j, rfl⟩ := (storeReg_m r v s).resolve_left (he ▸ hne)
      exact .inr ⟨j, v, hw, hl rfl⟩
    · exact .inl ⟨c, hw, hi, i, (acceptedState_m i s).resolve_left (he ▸ hne), hdec⟩
  · rcases step_changes_of_engineStep_eq State.k (fun _ _ _ _ _ _ => rfl) hk hs hr hne with
      ⟨r, v, hw, hl, he⟩ | ⟨c, i, hw, hi, hdec, _, he⟩
    · obtain ⟨j, rfl⟩ := (storeReg_k r v s).resolve_left (he ▸ hne)
      exact .inr (.inr ⟨j, v, hw, hl rfl⟩)
    · rcases (acceptedState_k i s).resolve_left (he ▸ hne) with hmem | ⟨len, rfl⟩
      · exact .inl ⟨c, hw, hi, i, hmem, hdec⟩
      · exact .inr (.inl ⟨len, c, hw, hi, _, List.mem_singleton.mpr rfl, hdec⟩)
  · rcases step_changes_of_engineStep_eq State.d (fun _ _ _ _ _ _ => rfl) hd hs hr hne with
      ⟨r, v, hw, hl, he⟩ | ⟨c, i, hw, hi, hdec, _, he⟩
    · obtain ⟨j, rfl⟩ := (storeReg_d r v s).resolve_left (he ▸ hne)
      exact .inr ⟨j, v, hw, hl rfl⟩
    · exact .inl ⟨c, hw, hi, i, (acceptedState_d i s).resolve_left (he ▸ hne), hdec⟩
  · rcases step_changes_of_engineStep_eq State.hotp (fun _ _ _ _ _ _ => rfl) hhotp hs hr hne with
      ⟨r, v, _, _, he⟩ | ⟨c, i, hw, hi, hdec, _, he⟩
    · exact absurd (he.trans (storeReg_hotp r v s)) hne
    · exact ⟨c, hw, hi, i, (acceptedState_hotp i s).resolve_left (he ▸ hne), hdec⟩

end Sys2Proof.Machine
end

section
/-! The machine's invariant (spec/10_state.md R39, R40, R50, R51; spec/60_exceptions.md R218; spec/70_reset_and_hazards.md
R250) is two independent parts, one of the HOTP results and one of the sequencer; while `rst_n` is high nothing else is
asked. -/

namespace Sys2Proof.Machine

/-- HOTP_CODE and HOTP_BCD belong to HOTP_TRUNC (R39, R40). -/
structure HotpRegs.Consistent (r : HotpRegs) : Prop where
  code_of_trunc : r.code.toNat = r.trunc.toNat % 1000000
  digits_of_code : ∀ k, k < 6 → (r.bcd.extractLsb' (20 - 4 * k) 4).toNat = r.code.toNat / 10 ^ (5 - k) % 10

theorem consistent_hotpResults (d : Words5) : (hotpResults d).Consistent where
  code_of_trunc := toNat_hotpResults_code d
  digits_of_code k hk := by rw [toNat_hotpResults_code]; exact digit_hotpBcd _ hk

theorem consistent_zero : HotpRegs.Consistent ⟨0, 0, 0, 0⟩ := ⟨by decide, by decide⟩

theorem State.Inv.hotp_consistent {s : State} (h : s.Inv) : s.hotp.Consistent := ⟨h.code_of_trunc, h.digits_of_code⟩

/-- An accepted command leaves consistent results: HOTP_TRUNC computes them, ZEROIZE clears them (R181, R201). -/
theorem consistent_acceptedState (i : Instr) {s : State} (h : s.hotp.Consistent) : (acceptedState i s).hotp.Consistent := by
  rcases acceptedState_hotp i s with hs | hi
  · rwa [hs]
  · rcases List.mem_pair.mp hi with rfl | rfl
    · exact consistent_hotpResults s.d
    · exact consistent_zero

/-- The invariant of an idle block with `rst_n` high. -/
theorem inv_of_idle {s : State} (hp : s.phase = .idle) (h2 : s.pend2 = false) (hr : s.rstN = true)
    (hh : s.hotp.Consistent) : s.Inv where
  round_index hb := absurd hp hb
  feed_after_last_round hf := by simp [hp] at hf
  busy_not_done hb := absurd hp hb
  idle_not_pending _ := h2
  pending_length ht := by simp [h2] at ht
  code_of_trunc := hh.code_of_trunc
  digits_of_code := hh.digits_of_code
  held_in_reset hlow := by simp [hr] at hlow

/-- The invariant of a block in its rounds; `rst_n` is then high. -/
theorem inv_of_round {s : State} (hp : s.phase = .round) (ht : s.t.toNat ≤ 79) (hd : s.status.done = false)
    (hl : s.pend2 = true → s.bitlen = s.mlen.setWidth 64 * 8) (hr : s.rstN = true) (hh : s.hotp.Consistent) : s.Inv where
  round_index _ := ht
  feed_after_last_round hf := by simp [hp] at hf
  busy_not_done _ := hd
  idle_not_pending hi := by simp [hp] at hi
  pending_length := hl
  code_of_trunc := hh.code_of_trunc
  digits_of_code := hh.digits_of_code
  held_in_reset hlow := by simp [hr] at hlow

/-- No clause speaks of the read port or the agents outside the block. -/
theorem State.Inv.withOutside {s : State} (h : s.Inv) (rdata : Option Word) (host : HostAgent) (turns : List Turn) :
    (s.withOutside rdata host turns).Inv where
  round_index := h.round_index
  feed_after_last_round := h.feed_after_last_round
  busy_not_done := h.busy_not_done
  idle_not_pending := h.idle_not_pending
  pending_length := h.pending_length
  code_of_trunc := h.code_of_trunc
  digits_of_code := h.digits_of_code
  held_in_reset hr :=
    have ⟨hp, hreg⟩ := h.held_in_reset hr
    ⟨hp, fun r => by rw [← hreg r]; cases r <;> rfl⟩

/-- With `rst_n` high the invariant goes over to a state with the same sequencer and HOTP results, if a busy block still
has DONE = 0 and a pending BITLEN its MLEN. -/
theorem State.Inv.transfer {s u : State} (h : s.Inv) (hp : u.phase = s.phase) (ht : u.t = s.t) (h2 : u.pend2 = s.pend2)
    (hh : u.hotp = s.hotp) (hr : u.rstN = true) (hd : s.phase ≠ .idle → s.status.done = false → u.status.done = false)
    (hb : u.bitlen = s.bitlen) (hm : s.phase ≠ .idle → u.mlen = s.mlen) : u.Inv where
  round_index hbusy := by rw [hp] at hbusy; rw [ht]; exact h.round_index hbusy
  feed_after_last_round hf := by rw [hp] at hf; rw [ht]; exact h.feed_after_last_round hf
  busy_not_done hbusy := by rw [hp] at hbusy; exact hd hbusy (h.busy_not_done hbusy)
  idle_not_pending hi := by rw [hp] at hi; rw [h2]; exact h.idle_not_pending hi
  pending_length hpend := by
    rw [h2] at hpend
    have hbusy : s.phase ≠ .idle := fun hi => by simp [h.idle_not_pending hi] at hpend
    rw [hb, hm hbusy]
    exact h.pending_length hpend
  code_of_trunc := by rw [hh]; exact h.code_of_trunc
  digits_of_code := by rw [hh]; exact h.digits_of_code
  held_in_reset hlow := by simp [hr] at hlow

end Sys2Proof.Machine
end

section
/-! Each of the seven effects of a step keeps the invariant. -/

namespace Sys2Proof.Machine

theorem readReg_reset (r : Reg) : readReg r State.reset = resetValue r := by
  cases r
  case h i => revert i; decide
  case m i => revert i; decide
  case k i => revert i; decide
  case d i => revert i; decide
  all_goals decide

/-- While `rst_n` is sampled low every register reads its reset value (R250, R251). -/
theorem readReg_holdInReset (r : Reg) (s : State) : readReg r (holdInReset s) = resetValue r :=
  calc readReg r (holdInReset s)
      _ = readReg r State.reset := by cases r <;> rfl
      _ = resetValue r := readReg_reset r

theorem inv_holdInReset (s : State) : (holdInReset s).Inv where
  round_index hb := absurd (holdInReset_phase s) hb
  feed_after_last_round hf := by simp at hf
  busy_not_done _ := rfl
  idle_not_pending _ := rfl
  pending_length hp := by simp at hp
  code_of_trunc := consistent_zero.code_of_trunc
  digits_of_code := consistent_zero.digits_of_code
  held_in_reset _ := ⟨rfl, fun r => readReg_holdInReset r s⟩

/-- A ROUND step counts t up to 79 and no further (R50, R116). -/
theorem State.Inv.roundStep {s : State} (h : s.Inv) (hp : s.phase = .round) (hr : s.rstN = true) :
    (Machine.roundStep s).Inv := by
  have hbusy : s.phase ≠ .idle := by simp [hp]
  by_cases ht : s.t = 79
  · rw [roundStep_of_last ht]
    exact {
      round_index := fun _ => h.round_index hbusy
      feed_after_last_round := fun _ => congrArg BitVec.toNat ht
      busy_not_done := fun _ => h.busy_not_done hbusy
      idle_not_pending := fun hi => nomatch hi
      pending_length := h.pending_length
      code_of_trunc := h.code_of_trunc
      digits_of_code := h.digits_of_code
      held_in_reset := fun hlow => by simp [hr] at hlow }
  · rw [roundStep_of_lt ht]
    have hle := h.round_index hbusy
    have hne : s.t.toNat ≠ 79 := fun he => ht (BitVec.eq_of_toNat_eq he)
    have hnext : (s.t + 1).toNat ≤ 79 := by
      have hadd : (s.t + 1).toNat = (s.t.toNat + 1) % 2 ^ 7 := rfl
      omega
    exact inv_of_round hp hnext (h.busy_not_done hbusy) h.pending_length hr h.hotp_consistent

/-- A FEED step starts the second padding block, which needs no third, or ends in IDLE (R117). -/
theorem State.Inv.feedStep {s : State} (h : s.Inv) (hp : s.phase = .feed) (hr : s.rstN = true) :
    (Machine.feedStep s).Inv := by
  cases h2 : s.pend2
  · rw [feedStep_of_last h2]
    exact inv_of_idle rfl h2 hr h.hotp_consistent
  · rw [feedStep_of_pending h2]
    exact inv_of_round rfl (Nat.zero_le 79) (h.busy_not_done (by simp [hp])) (fun hl => nomatch hl) hr h.hotp_consistent

theorem State.Inv.engineStep {s : State} (h : s.Inv) (hr : s.rstN = true) : (Machine.engineStep s).Inv := by
  cases hp : s.phase
  case idle => rwa [engineStep_of_idle hp]
  case round => rw [engineStep_of_round hp]; exact h.roundStep hp hr
  case feed => rw [engineStep_of_feed hp]; exact h.feedStep hp hr

theorem State.Inv.releaseReset {s : State} (h : s.Inv) : State.Inv { s with rstN := true } :=
  h.transfer rfl rfl rfl rfl rfl (fun _ hd => hd) rfl (fun _ => rfl)

theorem State.Inv.raiseError {s : State} (h : s.Inv) (kind : ErrorKind) (hr : s.rstN = true) :
    (Machine.raiseError kind s).Inv := by
  have ⟨hdone, _⟩ := raise_keeps kind s.status
  exact h.transfer rfl rfl rfl rfl hr (fun _ hd => hdone.trans hd) rfl (fun _ => rfl)

/-- A register write sets no DONE, and changes MLEN on an idle block only (R23, R75). -/
theorem State.Inv.storeReg {s : State} (h : s.Inv) {r : Reg} {v : Word} (hl : r.busyLocked = true → s.phase = .idle)
    (hr : s.rstN = true) : (Machine.storeReg r v s).Inv := by
  refine h.transfer (storeReg_phase r v s) (storeReg_t r v s) (storeReg_pend2 r v s) (storeReg_hotp r v s)
    ((storeReg_rstN r v s).trans hr) (fun _ hd => ?_) (storeReg_bitlen r v s)
    (fun hb => (storeReg_mlen r v s).resolve_right fun hlock => hb (hl hlock))
  rcases storeReg_status r v s with hs | ⟨_, hs⟩
  · rw [hs, hd]
  · rw [hs, Status.w1c, hd, Bool.false_and]

/-- PEND2 after an accepted command: only SHA_FINAL with n > 55 sets it, and it latches the bit length (R51, R124). -/
theorem acceptedState_pend2 (i : Instr) {s : State} (h : s.pend2 = false) (h2 : (acceptedState i s).pend2 = true) :
    startsEngine i = true ∧ (acceptedState i s).bitlen = (acceptedState i s).mlen.setWidth 64 * 8 := by
  cases i with
  | shaFinal n =>
    have hn : ¬ argCount n ≤ 55 := by simpa [acceptedState, startsEngine, acceptedEffect] using h2
    simp [acceptedState, startsEngine, acceptedEffect, hn, bitLength]
  | _ => simp [acceptedState, startsEngine, acceptedEffect, h] at h2

/-- The engine starts with t = 0 (R115). -/
theorem acceptedState_t {i : Instr} (s : State) (h : startsEngine i = true) : (acceptedState i s).t = 0 := by
  rcases startsEngine_iff.mp h with rfl | ⟨n, rfl⟩ <;> rfl

/-- An accepted command starts a block, with DONE cleared, or leaves the block idle with nothing pending (R210, R218). -/
theorem State.Inv.acceptedState {s : State} (h : s.Inv) (i : Instr) (hi : s.phase = .idle) (hr : s.rstN = true) :
    (Machine.acceptedState i s).Inv := by
  have hpend := acceptedState_pend2 i (h.idle_not_pending hi)
  have hphase := acceptedState_phase i hi
  have hhotp := consistent_acceptedState i h.hotp_consistent
  obtain ⟨_, hrst, _⟩ := acceptedState_outside i s
  obtain ⟨_, _, _, _, _, hdone⟩ := acceptedState_status i s
  cases hstart : startsEngine i
  · simp only [hstart, Bool.false_eq_true, if_false, false_and, imp_false, Bool.not_eq_true] at hphase hpend
    exact inv_of_idle hphase hpend (hrst.trans hr) hhotp
  · simp only [hstart, if_true] at hphase
    have ht : (Machine.acceptedState i s).t.toNat ≤ 79 := by rw [acceptedState_t s hstart]; decide
    exact inv_of_round hphase ht (by rw [hdone, hstart]; rfl) (fun h2 => (hpend h2).2) (hrst.trans hr) hhotp

theorem rstN_of_nextWrites {r : Reg} {v : Word} {s : State} (h : nextWrites r v s) : s.rstN = true := h.1

/-- Settles O49, effect by effect. -/
theorem everyStepKeepsTheInvariant : Obligations.EveryStepKeepsTheInvariant := by
  intro s t h hs
  obtain ⟨u, rdata, host, turns, he, rfl⟩ := step_effect hs
  suffices hu : u.Inv from hu.withOutside rdata host turns
  cases he with
  | quiet => exact h
  | engine _ hr => exact h.engineStep hr
  | reset _ => exact inv_holdInReset s
  | release => exact h.releaseReset
  | raise kind hr => exact h.raiseError kind hr
  | store r v hw _ _ hl => exact h.storeReg hl (rstN_of_nextWrites hw)
  | command c i hw hi _ _ => exact h.acceptedState i hi (rstN_of_nextWrites hw)

end Sys2Proof.Machine
end

section
/-! How the STATUS flags and BUSY move in a step (spec/10_state.md R23 to R30; spec/60_exceptions.md R214, R217). -/

namespace Sys2Proof.Machine

/-- Every error bit STATUS[6:2] that is 1 in f is 1 in g. -/
structure Status.ErrorsKept (f g : Status) : Prop where
  errBusy : f.errBusy = true → g.errBusy = true
  errOpcode : f.errOpcode = true → g.errOpcode = true
  errArg : f.errArg = true → g.errArg = true
  errAccess : f.errAccess = true → g.errAccess = true
  lenOvf : f.lenOvf = true → g.lenOvf = true

theorem errorsKept_refl (f : Status) : f.ErrorsKept f := ⟨id, id, id, id, id⟩

theorem errorsKept_raise (kind : ErrorKind) (f : Status) : f.ErrorsKept (f.raise kind) :=
  have ⟨_, hb, ho, hg, ha, hl⟩ := raise_keeps kind f
  ⟨hb, ho, hg, ha, hl⟩

theorem errorsKept_engineStep (s : State) : s.status.ErrorsKept (engineStep s).status := by
  rcases engineStep_status s with h | h <;> rw [h] <;> exact ⟨id, id, id, id, id⟩

theorem errorsKept_acceptedState (i : Instr) (s : State) : s.status.ErrorsKept (acceptedState i s).status := by
  obtain ⟨hb, ho, hg, ha, hl, _⟩ := acceptedState_status i s
  exact ⟨hb.trans, ho.trans, hg.trans, ha.trans, hl⟩

/-- Besides a reset only an admitted write to STATUS clears an error bit, by W1C (R23, R214). -/
theorem step_errorsKept_or_w1c {s t : State} (h : step s = .next t) (hr : nextTurn s ≠ .assertReset) :
    s.status.ErrorsKept t.status ∨ ∃ v, nextWrites .status v s ∧ t.status = s.status.w1c v := by
  obtain ⟨u, rdata, host, turns, he, rfl⟩ := step_effect h
  show s.status.ErrorsKept u.status ∨ ∃ v, nextWrites .status v s ∧ u.status = s.status.w1c v
  cases he with
  | quiet => exact .inl (errorsKept_refl _)
  | engine _ _ => exact .inl (errorsKept_engineStep s)
  | reset hn => exact absurd hn hr
  | release => exact .inl (errorsKept_refl _)
  | raise kind _ => exact .inl (errorsKept_raise kind s.status)
  | store r v hw _ _ _ =>
    rcases storeReg_status r v s with hs | ⟨rfl, hs⟩
    · rw [hs]; exact .inl (errorsKept_refl _)
    · exact .inr ⟨v, hw, hs⟩
  | command c i _ _ _ _ => exact .inl (errorsKept_acceptedState i s)

/-- A flag cleared by W1C stays 1 unless its bit is named. -/
theorem w1c_keeps_or_named {b : Bool} (x : Bool) (h : b = true) : (b && !x) = true ∨ x = true := by
  subst h; cases x <;> simp

/-- Settles O12: a step either keeps every error bit or is a W1C write, which clears the bits it names. -/
theorem errorBitsAreSticky : Obligations.ErrorBitsAreSticky := by
  intro s t h
  by_cases hr : nextTurn s = .assertReset
  · exact .inl hr
  refine .inr ?_
  rcases step_errorsKept_or_w1c h hr with hk | ⟨v, hw, ht⟩
  · exact ⟨fun hb => .inl (hk.errBusy hb), fun hb => .inl (hk.errOpcode hb), fun hb => .inl (hk.errArg hb),
      fun hb => .inl (hk.errAccess hb), fun hb => .inl (hk.lenOvf hb)⟩
  · have named {b : Bool} {n : Nat} (hb : b = true) :
        (b && !v.getLsbD n) = true ∨ ∃ v, nextWrites .status v s ∧ v.getLsbD n = true :=
      (w1c_keeps_or_named (v.getLsbD n) hb).imp_right fun hx => ⟨v, hw, hx⟩
    rw [ht]
    exact ⟨named, named, named, named, named⟩

theorem readReg_status_bit0 (s : State) : (readReg .status s).getLsbD 0 = s.busy := by
  rw [readReg, getLsbD_statusWord]
  simp

/-- A command that starts the engine with its argument in range (R94). -/
theorem startsEngine_and_wf_iff {i : Instr} :
    startsEngine i = true ∧ i.wf = true ↔ i = .shaCompress ∨ ∃ n : BitVec 7, n.toNat ≤ 63 ∧ i = .shaFinal n := by
  cases i <;> simp [startsEngine, Instr.wf]

theorem phase_after_assertReset {s t : State} (h : step s = .next t) (hn : nextTurn s = .assertReset) : t.phase = .idle := by
  simp only [step, hn, takeTurn, Host.Outcome.next.injEq] at h
  rw [← h, holdInReset_phase]

/-- A step that raises BUSY is an accepted SHA_COMPRESS or SHA_FINAL: the idle engine has no step, a register write leaves
the phase. -/
theorem startsEngine_of_busy_rises {s t : State} (h : step s = .next t) (hi : s.phase = .idle) (hb : t.phase ≠ .idle) :
    ∃ c i, nextWrites .cmd c s ∧ decode c = .ok i ∧ startsEngine i = true ∧ i.wf = true := by
  have hr : nextTurn s ≠ .assertReset := fun hn => hb (phase_after_assertReset h hn)
  rcases step_changes State.phase (fun _ _ _ _ _ _ => rfl) h hr (fun he => hb (he.trans hi)) with
    ⟨_, he⟩ | ⟨r, v, _, _, he⟩ | ⟨c, i, hw, _, hd, hwf, he⟩
  · exact absurd (by rw [he, engineStep_of_idle hi, hi]) hb
  · exact absurd (by rw [he, storeReg_phase, hi]) hb
  · refine ⟨c, i, hw, hd, ?_, hwf⟩
    by_contra hn
    exact hb (by rw [he, acceptedState_phase i hi, if_neg hn])

/-- A step other than a reset that lowers BUSY is the last feed-forward: no command is accepted while busy. -/
theorem lastFeed_of_busy_falls {s t : State} (h : step s = .next t) (hb : s.phase ≠ .idle) (hi : t.phase = .idle)
    (hr : nextTurn s ≠ .assertReset) : nextTurn s = .engine ∧ s.phase = .feed ∧ s.pend2 = false := by
  rcases step_changes State.phase (fun _ _ _ _ _ _ => rfl) h hr (fun he => hb (he.symm.trans hi)) with
    ⟨hn, he⟩ | ⟨r, v, _, _, he⟩ | ⟨_, _, _, hidle, _⟩
  · exact ⟨hn, engineStep_phase_eq_idle hb (he.symm.trans hi)⟩
  · exact absurd (by rw [← storeReg_phase r v s, ← he, hi]) hb
  · exact absurd hidle hb

/-- Settles O15: a command starts the engine from IDLE, the feed-forward of the last block ends it, and the two lemmas above
leave no other step. -/
theorem busyRisesAndFallsAsStated : Obligations.BusyRisesAndFallsAsStated := by
  refine ⟨rfl, fun s => ?_, fun s i hi hstart => ?_, fun s hp h2 => ?_, fun s t hs => ⟨fun hi hb => ?_, fun hb hi => ?_⟩⟩
  · rw [readReg_status_bit0, busy_eq_true_iff]
  · obtain ⟨hstart, hwf⟩ := startsEngine_and_wf_iff.mpr hstart
    refine ⟨acceptedState i s, by rw [exec_of_idle i hi, if_pos hwf], ?_⟩
    rw [acceptedState_phase i hi, if_pos hstart]
    decide
  · rw [engineStep_of_feed hp, feedStep_of_last h2]
  · obtain ⟨c, i, hw, hd, hstart⟩ := startsEngine_of_busy_rises hs hi hb
    rcases startsEngine_and_wf_iff.mp hstart with rfl | ⟨n, hn, rfl⟩
    · exact ⟨c, hw, .inl hd⟩
    · exact ⟨c, hw, .inr ⟨n, hn, hd⟩⟩
  · by_cases hr : nextTurn s = .assertReset
    · exact .inr hr
    · exact .inl (lastFeed_of_busy_falls hs hb hi hr)

end Sys2Proof.Machine
end

section
/-! The bits of STATUS as software reads and clears them (spec/10_state.md R23). -/

namespace Sys2Proof.Machine

theorem busAccess_write_status (v : Word) {s : State} (hr : s.rstN = true) :
    busAccess (writeAccess .status v) s = .next (ackStatus v { s with rdata := none }) :=
  busAccess_write .status v hr

/-- A W1C write clears exactly the bits of STATUS[6:1] that are 1 in it. -/
theorem getLsbD_statusWord_ackStatus (v : Word) (s : State) {i : Nat} (h1 : 1 ≤ i) (h6 : i ≤ 6) :
    (ackStatus v s).statusWord.getLsbD i = (s.statusWord.getLsbD i && !v.getLsbD i) := by
  rw [getLsbD_statusWord, getLsbD_statusWord]
  interval_cases i <;> simp [Status.w1c]

theorem getLsbD_statusWord_of_ge (s : State) {i : Nat} (hi : 7 ≤ i) : s.statusWord.getLsbD i = false := by
  rw [← BitVec.testBit_toNat]
  exact Nat.testBit_lt_two_pow ((statusWord_lt s).trans_le (Nat.pow_le_pow_right two_pos hi))

/-- Settles O45: STATUS bit by bit, after a W1C write and as it stands. -/
theorem statusWriteOneToClear : Obligations.StatusWriteOneToClear := by
  refine ⟨fun s v hr => ⟨_, busAccess_write_status v hr, fun i h1 h6 => ?_, ?_⟩, fun s => ?_, errAny_eq, by decide⟩
  · exact getLsbD_statusWord_ackStatus v { s with rdata := none } h1 h6
  · rw [readReg_status_bit0, readReg_status_bit0]; rfl
  · refine ⟨readReg_status_bit0 s, ?_, ?_, ?_, ?_, ?_, ?_, fun i hi => getLsbD_statusWord_of_ge s hi⟩
    all_goals rw [readReg, getLsbD_statusWord]; simp

end Sys2Proof.Machine
end

section
/-! The step of each agent whose turn stands first (spec/20_memory.md R80). -/

namespace Sys2Proof.Machine

theorem step_bus (a : Access) (rest : List Turn) (s : State) :
    step { s with turns := .bus a :: rest } = busAccess a { s with turns := rest } := rfl

theorem step_engine (rest : List Turn) {s : State} (hr : s.rstN = true) :
    step { s with turns := .engine :: rest } = .next (engineStep { s with turns := rest }) :=
  congrArg Host.Outcome.next (if_pos hr)

theorem step_host (rest : List Turn) (s : State) :
    step { s with turns := .host :: rest } = hostTurn { s with turns := rest } := rfl

/-- With nothing pending a busy engine takes its step (notes/assumptions/1.md). -/
theorem step_of_busy_nothing_pending {s : State} (hr : s.rstN = true) (hb : s.phase ≠ .idle) :
    step { s with turns := [] } = .next (engineStep { s with turns := [] }) := by
  have hturn : nextTurn { s with turns := [] } = .engine := if_pos (busy_eq_true hb)
  rw [step, hturn]
  exact congrArg Host.Outcome.next (if_pos hr)

/-- A CMD write of a word that decodes runs its command, with nothing on the read port (R22, R84). -/
theorem busAccess_cmd {c : Word} {i : Instr} {s : State} (hd : decode c = .ok i) (hr : s.rstN = true) :
    busAccess (cmdAccess c) s = exec i { s with rdata := none } := by
  rw [cmdAccess, busAccess_write .cmd c hr, writeReg_cmd, writeCmd_of_ok _ hd]

/-- A WR line makes its access with the host's position moved on, and the host does nothing after it (R102). -/
theorem hostTurn_wr {r : Reg} {v : Word} {s : State} (hp : s.host.prog[s.host.pc]? = some (.wr r v)) :
    hostTurn s = busAccess (writeAccess r v) (hostGoto (s.host.pc + 1) s) := by
  obtain ⟨t, ht⟩ := busAccess_answers_next (writeAccess r v) (hostGoto (s.host.pc + 1) s)
  simp [hostTurn, hp, HostOp.access, HostOp.after, ht]

/-- A word given by its value is the word withFetchWord places. -/
theorem withFetchWord_toNat (c : Word) (s : State) : s.withFetchWord 32 c.toNat = withCommand c s := by
  rw [State.withFetchWord, Nat.mod_eq_of_lt c.isLt, BitVec.ofNat_toNat, BitVec.setWidth_eq]

/-- Settles O6: each of the three ways makes the CMD write, and `busAccess_cmd` runs it. -/
theorem stepRunsTheDecodedCommand : Obligations.StepRunsTheDecodedCommand := by
  intro s c i rest hd
  refine ⟨fun hr => ?_, fun hr hp => ?_, ?_⟩
  · rw [step_bus]
    exact busAccess_cmd hd hr
  · rw [step_host, hostTurn_wr (s := { s with turns := rest }) hp]
    exact busAccess_cmd hd hr
  · rw [withFetchWord_toNat]
    exact busAccess_cmd (s := { s with rstN := true }) hd rfl

/-- Settles O7: the three clauses are the three cases of who moves. -/
theorem engineTakesItsStep : Obligations.EngineTakesItsStep := fun _ rest hr =>
  ⟨step_engine rest hr, step_of_busy_nothing_pending hr, engineStep_of_idle⟩

end Sys2Proof.Machine
end

section
/-! The reserved offsets of the window (spec/10_state.md R20, R41). -/

namespace Sys2Proof.Machine

/-- The words of the window that hold no register, by word index. -/
theorem regAt_word_eq_none_iff : ∀ q : Fin 64, regAt (BitVec.ofNat 8 (4 * q)) = none ↔
    (5 ≤ q.val ∧ q.val ≤ 7) ∨ (13 ≤ q.val ∧ q.val ≤ 15) ∨ (53 ≤ q.val ∧ q.val ≤ 55) ∨ 60 ≤ q.val := by
  decide

/-- Settles O36: the offsets are the table's, the lookup finds them and nothing else, and an aligned offset is four times its
word index. -/
theorem registerMapIsAsStated : Obligations.RegisterMapIsAsStated := by
  refine ⟨rfl, rfl, rfl, rfl, rfl, by decide, by decide, by decide, by decide, rfl, rfl, rfl, rfl, regAt_offset,
    fun _ _ => offset_of_regAt, fun off ha => ?_⟩
  have hlt := off.isLt
  have hword : BitVec.ofNat 8 (4 * (off.toNat / 4)) = off := by
    rw [Nat.mul_div_cancel' (Nat.dvd_of_mod_eq_zero ha), BitVec.ofNat_toNat, BitVec.setWidth_eq]
  have hnone := regAt_word_eq_none_iff ⟨off.toNat / 4, by omega⟩
  simp only [hword] at hnone
  rw [hnone]
  omega

end Sys2Proof.Machine
end

section
/-! The three outcomes of a register write other than CMD, and what a performed one reads and leaves (spec/20_memory.md R75,
R76, R78). -/

namespace Sys2Proof.Machine

theorem writeReg_of_locked {r : Reg} (v : Word) {s : State} (hl : r.busyLocked = true) (hb : s.phase ≠ .idle) :
    writeReg r v s = .next (raiseError .errBusy s) := by
  simp [writeReg, hl, busy_eq_true hb]

theorem writeReg_of_readOnly {r : Reg} (v : Word) (s : State) (ho : r.readOnly = true) :
    writeReg r v s = .next (raiseError .errAccess s) := by
  have hl : r.busyLocked = false := by
    cases r with
    | id | hotpOffset | hotpTrunc | hotpCode | hotpBcd => rfl
    | cmd | status | inten | mlen | h _ | m _ | k _ | d _ => exact nomatch ho
  simp [writeReg, hl, ho]

theorem writeReg_of_performed {r : Reg} (v : Word) {s : State} (hc : r ≠ .cmd) (ho : r.readOnly = false)
    (hl : r.busyLocked = true → s.phase = .idle) : writeReg r v s = .next (storeReg r v s) := by
  have hfree : ¬ (r.busyLocked = true ∧ s.busy = true) := fun ⟨h, hb⟩ => busy_eq_true_iff.mp hb (hl h)
  simp [writeReg, hfree, ho, hc]

/-- A word of a buffer other than the one written. -/
theorem getElem_set_of_ne {n : Nat} (x : Vector Word n) (v : Word) {i j : Fin n} (h : i ≠ j) : (x.set i v)[j] = x[j] :=
  Vector.getElem_set_ne i.isLt j.isLt (fun he => h (Fin.ext he))

/-- No register but the one addressed reads otherwise after a write (R78). -/
theorem readReg_storeReg_of_ne {r q : Reg} (v : Word) (s : State) (hne : q ≠ r) :
    readReg q (storeReg r v s) = readReg q s := by
  cases r with
  | status => cases q with
    | status => exact absurd rfl hne
    | _ => rfl
  | inten => cases q with
    | inten => exact absurd rfl hne
    | _ => rfl
  | mlen => cases q with
    | mlen => exact absurd rfl hne
    | _ => rfl
  | h i => cases q with
    | h j => exact getElem_set_of_ne s.h v fun he => hne (congrArg Reg.h he.symm)
    | _ => rfl
  | m i => cases q with
    | m j => exact getElem_set_of_ne s.m v fun he => hne (congrArg Reg.m he.symm)
    | _ => rfl
  | k i => cases q with
    | k j => exact getElem_set_of_ne s.k v fun he => hne (congrArg Reg.k he.symm)
    | _ => rfl
  | d i => cases q with
    | d j => exact getElem_set_of_ne s.d v fun he => hne (congrArg Reg.d he.symm)
    | _ => rfl
  | _ => rfl

theorem frameExcept_storeReg (r : Reg) (v : Word) (s : State) : FrameExcept (· = r) s (storeReg r v s) where
  registers _ hne := readReg_storeReg_of_ne v s hne
  sequencer := ⟨storeReg_phase r v s, storeReg_t r v s, storeReg_pend2 r v s, storeReg_bitlen r v s⟩
  working := by cases r <;> exact ⟨rfl, rfl⟩
  outside := by cases r <;> exact ⟨rfl, rfl, rfl, rfl⟩

/-- A register with 32 writable bits: MLEN, H, M, K, D (R78). -/
def Reg.IsData (r : Reg) : Prop := r = .mlen ∨ (∃ i, r = .h i) ∨ (∃ i, r = .m i) ∨ (∃ i, r = .k i) ∨ ∃ i, r = .d i

theorem readReg_storeReg_of_isData {r : Reg} (v : Word) (s : State) (h : r.IsData) : readReg r (storeReg r v s) = v := by
  rcases h with rfl | ⟨i, rfl⟩ | ⟨i, rfl⟩ | ⟨i, rfl⟩ | ⟨i, rfl⟩
  · rfl
  all_goals exact Vector.getElem_set_self i.isLt

theorem writeReg_of_isData {r : Reg} (v : Word) {s : State} (h : r.IsData) (hi : s.phase = .idle) :
    writeReg r v s = .next (storeReg r v s) := by
  rcases h with rfl | ⟨i, rfl⟩ | ⟨i, rfl⟩ | ⟨i, rfl⟩ | ⟨i, rfl⟩ <;>
    exact writeReg_of_performed v nofun rfl fun _ => hi

/-- An INTEN write in any phase (R31, R75). -/
theorem busAccess_write_inten (v : Word) {s : State} (hr : s.rstN = true) :
    busAccess (writeAccess .inten v) s = .next (storeReg .inten v { s with rdata := none }) :=
  busAccess_write .inten v hr

theorem readReg_storeReg_inten (v : Word) (s : State) : readReg .inten (storeReg .inten v s) = v &&& 0x3 := by
  apply BitVec.eq_of_getLsbD_eq
  intro i hi
  rw [readReg, getLsbD_intenWord, BitVec.getLsbD_and]
  interval_cases i <;> simp [storeReg, intenOfWord]

/-- The W1C write as one word equation: bits 6:1 of the written word are cleared (R23). -/
theorem statusWord_ackStatus (v : Word) (s : State) : (ackStatus v s).statusWord = s.statusWord &&& ~~~(v &&& 0x7E) := by
  apply BitVec.eq_of_getLsbD_eq
  intro i hi
  rw [BitVec.getLsbD_and, BitVec.getLsbD_not, BitVec.getLsbD_and]
  rcases (by omega : i = 0 ∨ (1 ≤ i ∧ i ≤ 6) ∨ 7 ≤ i) with rfl | ⟨h1, h6⟩ | h7
  · have hbusy : (ackStatus v s).statusWord.getLsbD 0 = s.statusWord.getLsbD 0 :=
      (readReg_status_bit0 (ackStatus v s)).trans (readReg_status_bit0 s).symm
    have hmask : (0x7E : Word).getLsbD 0 = false := rfl
    rw [hbusy, hmask]
    simp
  · have hmask : (0x7E : Word).getLsbD i = true := by interval_cases i <;> rfl
    rw [getLsbD_statusWord_ackStatus v s h1 h6, hmask]
    simp [hi]
  · simp [getLsbD_statusWord_of_ge _ h7]

/-- Settles O43: `frameExcept_storeReg` is the frame of all three clauses of stored writes. -/
theorem writesStoreTheRegister : Obligations.WritesStoreTheRegister := by
  refine ⟨fun s r v hr hi hdata => ?_, fun s v hr => ?_, fun s v hr => ?_, fun s v hr => ?_⟩
  · refine ⟨storeReg r v { s with rdata := none }, ?_, readReg_storeReg_of_isData v _ hdata, frameExcept_storeReg r v _⟩
    rw [busAccess_write r v hr]
    exact writeReg_of_isData v hdata hi
  · exact ⟨_, busAccess_write_inten v hr, readReg_storeReg_inten v _, frameExcept_storeReg .inten v _⟩
  · exact ⟨_, busAccess_write_status v hr, statusWord_ackStatus v _, frameExcept_storeReg .status v _⟩
  · rw [busAccess_write .cmd v hr, writeReg_cmd]

end Sys2Proof.Machine
end

section
/-! Writing a register twice (spec/20_memory.md R79). -/

namespace Sys2Proof.Machine

theorem w1c_w1c (f : Status) (v : Word) : (f.w1c v).w1c v = f.w1c v := by
  simp [Status.w1c]

theorem storeReg_storeReg (r : Reg) (v : Word) (s : State) : storeReg r v (storeReg r v s) = storeReg r v s := by
  cases r
  case status => simp [storeReg, ackStatus, w1c_w1c]
  case h i => simp [storeReg]
  case m i => simp [storeReg]
  case k i => simp [storeReg]
  case d i => simp [storeReg]
  all_goals rfl

/-- A register write other than a CMD write is stopped by the same check, or performed, again. -/
theorem writeReg_idempotent {r : Reg} {v : Word} {s t : State} (hc : r ≠ .cmd) (h : writeReg r v s = .next t) :
    writeReg r v t = .next t := by
  rcases writeReg_cases h with ⟨hl, hb, rfl⟩ | ⟨ho, rfl⟩ | ⟨_, ho, hl, rfl⟩ | ⟨rfl, _⟩ | ⟨rfl, _⟩
  · exact writeReg_of_locked v hl hb
  · exact writeReg_of_readOnly v _ ho
  · rw [writeReg_of_performed v hc ho fun h => (storeReg_phase r v s).trans (hl h), storeReg_storeReg]
  · exact absurd rfl hc
  · exact absurd rfl hc

/-- Settles O44: while `rst_n` is low neither write is performed, else the second does what the first did. -/
theorem registerWritesAreIdempotent : Obligations.RegisterWritesAreIdempotent := by
  intro s r v hc
  cases hr : s.rstN
  · exact ⟨respond (writeAccess r v) 0 s, busAccess_while_reset hr, busAccess_while_reset hr⟩
  · obtain ⟨t, ht⟩ := writeReg_answers_next r v { s with rdata := none }
    obtain ⟨hrst, hrdata, _⟩ := writeReg_outside ht
    have hport : { t with rdata := none } = t := congrArg (fun port => { t with rdata := port }) hrdata.symm
    refine ⟨t, (busAccess_write r v hr).trans ht, ?_⟩
    rw [busAccess_write r v (hrst.trans hr), hport]
    exact writeReg_idempotent hc ht

end Sys2Proof.Machine
end

section
/-! Every access completes: reads, refused accesses and the busy lock (spec/20_memory.md R70, R73 to R77). -/

namespace Sys2Proof.Machine

/-- Settles O8: each agent's turn answers a next state. -/
theorem everyStepAnswersNext : Obligations.EveryStepAnswersNext := fun s =>
  takeTurn_answers_next (nextTurn s) (dropTurn s)

/-- A field read as a word leaves the bits above it 0 (R77). -/
theorem toNat_setWidth_lt {w : Nat} (x : BitVec w) (n : Nat) : (x.setWidth n).toNat < 2 ^ w := by
  rw [BitVec.toNat_setWidth]
  exact (Nat.mod_le _ _).trans_lt x.isLt

/-- Settles O42, register by register. -/
theorem reservedBitsReadZero : Obligations.ReservedBitsReadZero := fun s =>
  ⟨statusWord_lt s, intenWord_lt s, toNat_setWidth_lt s.hotp.offset 32, toNat_setWidth_lt s.hotp.trunc 32,
    toNat_setWidth_lt s.hotp.code 32, toNat_setWidth_lt s.hotp.bcd 32⟩

/-- Settles O38: such an access is not admitted. -/
theorem narrowOrMisalignedAccessRefused : Obligations.NarrowOrMisalignedAccessRefused := fun _ a hr ha =>
  busAccess_refused hr ((admitted_eq_false_iff a).mpr ha)

/-- An admitted access to an offset that holds no register (R41, R76). -/
theorem busAccess_reserved_offset {off : BitVec 8} (write : Bool) (v : Word) {s : State} (hr : s.rstN = true)
    (hal : off.toNat % 4 = 0) (hnone : regAt off = none) : busAccess ⟨off, .four, write, v⟩ s =
      .next { s with status := { s.status with errAccess := true }, rdata := if write then none else some 0 } := by
  have hadm : Access.admitted ⟨off, .four, write, v⟩ = true := by simp [Access.admitted, (aligned_iff off).mpr hal]
  exact busAccess_reserved hr hadm hnone

/-- The engine writes no register but STATUS and H (R74). -/
theorem readReg_engineStep {r : Reg} (s : State) (hs : r ≠ .status) (hh : ∀ i, r ≠ .h i) :
    readReg r (engineStep s) = readReg r s := by
  obtain ⟨hinten, hmlen, hm, hk, hd, hhotp, _⟩ := engineStep_keeps s
  cases r with
  | status => exact absurd rfl hs
  | h i => exact absurd rfl (hh i)
  | _ => simp [readReg, State.intenWord, hinten, hmlen, hm, hk, hd, hhotp]

/-- Settles O39: a read leaves the state as it was but for the read port, so a second one finds the same register. -/
theorem readsReturnTheRegister : Obligations.ReadsReturnTheRegister := by
  refine ⟨fun s r hr => ⟨_, busAccess_read r hr, rfl, ?_⟩, fun _ => rfl, fun s off hr hal hnone => ?_,
    fun s r hs hh => readReg_engineStep s hs hh, fun s hp => engineStep_h hp⟩
  · rw [busAccess_read r (s := { s with rdata := some (readReg r s) }) hr]
    cases r <;> rfl
  · exact busAccess_reserved_offset false 0 hr hal hnone

/-- Settles O40: the six kinds of register the lock names are the busy-locked ones, and STATUS and INTEN are none of them. -/
theorem busyLockOnDataRegisters : Obligations.BusyLockOnDataRegisters := by
  refine ⟨fun s r v hr hb hlist => ?_, fun s r v hr hlist => ?_⟩
  · have hlocked : r.busyLocked = true := by
      rcases hlist with rfl | rfl | ⟨i, rfl⟩ | ⟨i, rfl⟩ | ⟨i, rfl⟩ | ⟨i, rfl⟩ <;> rfl
    rw [busAccess_write r v hr]
    exact writeReg_of_locked v hlocked hb
  · rcases hlist with rfl | rfl
    · exact ⟨_, busAccess_write_status v hr, by simp [Status.w1c]⟩
    · exact ⟨_, busAccess_write_inten v hr, by simp [storeReg]⟩

/-- Settles O41: the five registers the rule names are the read-only ones. -/
theorem readOnlyAndReservedRefused : Obligations.ReadOnlyAndReservedRefused := by
  refine ⟨fun s r v hr hlist => ?_, fun s off write v hr hal hnone => busAccess_reserved_offset write v hr hal hnone⟩
  have hreadOnly : r.readOnly = true := by rcases hlist with rfl | rfl | rfl | rfl | rfl <;> rfl
  rw [busAccess_write r v hr]
  exact writeReg_of_readOnly v _ hreadOnly

end Sys2Proof.Machine
end

section
/-! A step of a busy block (spec/20_memory.md R74, R75, R80, R83). -/

namespace Sys2Proof.Machine

/-- A register write the busy lock lets through changes only STATUS and INTEN (R75, R76). -/
theorem storeReg_of_not_locked {r : Reg} (v : Word) (s : State) (h : r.busyLocked = false) :
    ∃ status inten, storeReg r v s = { s with status := status, inten := inten } := by
  cases r with
  | status => exact ⟨_, s.inten, rfl⟩
  | inten => exact ⟨s.status, _, rfl⟩
  | id | hotpOffset | hotpTrunc | hotpCode | hotpBcd => exact ⟨s.status, s.inten, rfl⟩
  | cmd | mlen | h _ | m _ | k _ | d _ => exact nomatch h

/-- Besides the engine's step and a reset, a step of a busy block changes only STATUS, INTEN and what is outside the
registers and the sequencer. -/
theorem step_of_busy {s t : State} (h : step s = .next t) (hb : s.phase ≠ .idle) (hr : nextTurn s ≠ .assertReset) :
    (nextTurn s = .engine ∧ ∃ rdata host turns, t = (engineStep s).withOutside rdata host turns) ∨
    ∃ status inten rstN rdata host turns, t =
      { s with status := status, inten := inten, rstN := rstN, rdata := rdata, host := host, turns := turns } := by
  obtain ⟨u, rdata, host, turns, he, rfl⟩ := step_effect h
  cases he with
  | quiet => exact .inr ⟨s.status, s.inten, s.rstN, rdata, host, turns, rfl⟩
  | engine hn _ => exact .inl ⟨hn, rdata, host, turns, rfl⟩
  | reset hn => exact absurd hn hr
  | release => exact .inr ⟨s.status, s.inten, true, rdata, host, turns, rfl⟩
  | raise kind _ => exact .inr ⟨_, s.inten, s.rstN, rdata, host, turns, rfl⟩
  | store r v _ _ _ hl =>
    have hfree : r.busyLocked = false := Bool.eq_false_iff.mpr fun hlock => hb (hl hlock)
    obtain ⟨status, inten, hstore⟩ := storeReg_of_not_locked v s hfree
    rw [hstore]
    exact .inr ⟨status, inten, s.rstN, rdata, host, turns, rfl⟩
  | command _ _ _ hi _ _ => exact absurd hi hb

/-- Settles O46: `step_of_busy` names no other field. -/
theorem noAccessDisturbsTheEngine : Obligations.NoAccessDisturbsTheEngine := by
  intro s t hb h hne hr
  rcases step_of_busy h hb hr with ⟨hn, _⟩ | ⟨_, _, _, _, _, _, rfl⟩
  · exact absurd hn hne
  · exact ⟨rfl, rfl, rfl, rfl, rfl, rfl, rfl⟩

/-- Settles O47: the engine writes only STATUS and H, every other step only STATUS and INTEN. -/
theorem inputsAreConstantWhileBusy : Obligations.InputsAreConstantWhileBusy := by
  intro s t hb h hr r hs hi hh
  rcases step_of_busy h hb hr with ⟨_, rdata, host, turns, rfl⟩ | ⟨_, _, _, _, _, _, rfl⟩
  · calc readReg r ((engineStep s).withOutside rdata host turns)
        _ = readReg r (engineStep s) := by cases r <;> rfl
        _ = readReg r s := readReg_engineStep s hs hh
  · cases r with
    | status => exact absurd rfl hs
    | inten => exact absurd rfl hi
    | _ => rfl

end Sys2Proof.Machine
end

section
/-! The engine steps a busy block still needs go down by one with each engine turn and with no other turn, so they run out
within the pending turns (spec/20_memory.md R80; spec/70_reset_and_hazards.md R262). -/

namespace Sys2Proof.Machine

theorem engineStepsLeft_le (s : State) : engineStepsLeft s ≤ 162 := by
  unfold engineStepsLeft
  split
  · exact Nat.zero_le _
  all_goals split <;> omega

theorem engineStepsLeft_pos {s : State} (hi : s.Inv) (hb : s.phase ≠ .idle) : 0 < engineStepsLeft s := by
  have ht := hi.round_index hb
  cases hp : s.phase
  case idle => exact absurd hp hb
  all_goals simp only [engineStepsLeft, hp]; omega

/-- An engine step of a busy block is one step less to go (R119). -/
theorem engineStepsLeft_engineStep {s : State} (hi : s.Inv) (hb : s.phase ≠ .idle) :
    engineStepsLeft (engineStep s) + 1 = engineStepsLeft s := by
  have hle := hi.round_index hb
  cases hp : s.phase
  case idle => exact absurd hp hb
  case round =>
    rw [engineStep_of_round hp]
    by_cases ht : s.t = 79
    · rw [roundStep_of_last ht]
      simp only [engineStepsLeft, hp, ht, BitVec.reduceToNat]
      omega
    · have hnext : (s.t + 1).toNat = s.t.toNat + 1 := by
        have hadd : (s.t + 1).toNat = (s.t.toNat + 1) % 2 ^ 7 := rfl
        omega
      have hne : s.t.toNat ≠ 79 := fun he => ht (BitVec.eq_of_toNat_eq he)
      rw [roundStep_of_lt ht]
      simp only [engineStepsLeft, hp, hnext]
      omega
  case feed =>
    rw [engineStep_of_feed hp]
    cases h2 : s.pend2
    · rw [feedStep_of_last h2]; simp [engineStepsLeft, hp, h2]
    · rw [feedStep_of_pending h2]; simp [engineStepsLeft, hp, h2]

theorem busAccess_outside {a : Access} {s t : State} (h : busAccess a s = .next t) :
    t.rstN = s.rstN ∧ t.turns = s.turns := by
  rcases busAccess_cases h with ⟨_, rfl⟩ | ⟨_, _, rfl⟩ | ⟨_, _, _, r, _, rfl⟩ | ⟨_, _, _, r, _, hw⟩
  · exact ⟨rfl, rfl⟩
  · exact ⟨rfl, rfl⟩
  · exact ⟨rfl, rfl⟩
  · obtain ⟨hrst, _, _, hturns⟩ := writeReg_outside hw
    exact ⟨hrst, hturns⟩

theorem hostTurn_outside {s t : State} (h : hostTurn s = .next t) : t.rstN = s.rstN ∧ t.turns = s.turns := by
  cases hp : s.host.prog[s.host.pc]? with
  | none =>
    simp only [hostTurn, hp, Host.Outcome.next.injEq] at h
    exact h ▸ ⟨rfl, rfl⟩
  | some op =>
    obtain ⟨u, hu⟩ := busAccess_answers_next op.access (hostGoto (s.host.pc + 1) s)
    obtain ⟨agent, hafter⟩ := after_changes_host_only op u
    simp only [hostTurn, hp, hu, Host.Outcome.next.injEq] at h
    rw [← h, hafter]
    obtain ⟨hrst, hturns⟩ := busAccess_outside hu
    exact ⟨hrst, hturns⟩

/-- No turn touches the pending ones, and `rst_n` goes low by its own turn only (R250). -/
theorem takeTurn_outside {turn : Turn} {s t : State} (h : takeTurn turn s = .next t) :
    t.turns = s.turns ∧ (turn ≠ .assertReset → s.rstN = true → t.rstN = true) := by
  cases turn with
  | host =>
    obtain ⟨hrst, hturns⟩ := hostTurn_outside h
    exact ⟨hturns, fun _ hr => hrst.trans hr⟩
  | bus a =>
    obtain ⟨hrst, hturns⟩ := busAccess_outside h
    exact ⟨hturns, fun _ hr => hrst.trans hr⟩
  | engine =>
    cases h
    obtain ⟨_, _, _, _, _, _, hrst, _, _, hturns⟩ := engineStep_keeps s
    unfold engineTurn
    split
    · exact ⟨hturns, fun _ hr => hrst.trans hr⟩
    · exact ⟨rfl, fun _ hr => hr⟩
  | assertReset => cases h; exact ⟨rfl, fun hne => absurd rfl hne⟩
  | releaseReset => cases h; exact ⟨rfl, fun _ _ => rfl⟩

/-- A step of a busy block takes the first pending turn off, and one of the engine steps to go where that turn is the
engine's. -/
theorem engineStepsLeft_step {s t : State} {turn : Turn} {rest : List Turn} (hi : s.Inv) (hb : s.phase ≠ .idle)
    (hr : s.rstN = true) (hs : s.turns = turn :: rest) (hne : turn ≠ .assertReset) (h : step s = .next t) :
    engineStepsLeft s = engineStepsLeft t + [turn].count .engine := by
  have hn : nextTurn s = turn := by rw [nextTurn, hs]
  by_cases he : turn = .engine
  · subst he
    obtain rfl : engineTurn (dropTurn s) = t := by simpa [step, hn, takeTurn] using h
    have hleft : engineStepsLeft (engineTurn (dropTurn s)) = engineStepsLeft (engineStep s) := by
      rw [engineTurn, dropTurn_rstN, if_pos hr]
      exact (congrArg engineStepsLeft (engineStep_withOutside s s.rdata s.host s.turns.tail) :)
    simp [hleft, engineStepsLeft_engineStep hi hb]
  · obtain ⟨hphase, ht, hpend, _⟩ := noAccessDisturbsTheEngine s t hb h (hn ▸ he) (hn ▸ hne)
    simp [engineStepsLeft, hphase, ht, hpend, he]

/-- One step, then the rest of a run. -/
theorem run_succ_of_step {s t : State} (n : Nat) (h : step s = .next t) : core.run (n + 1) s = core.run n t := by
  have hcore : core.step s = .next t := h
  simp only [Host.Core.run, hcore]

/-- A block reaches IDLE within its pending turns if they hold the engine steps it needs and no reset. -/
theorem run_reaches_idle (turns : List Turn) {s : State} (hs : s.turns = turns) (hi : s.Inv) (hr : s.rstN = true)
    (hreset : .assertReset ∉ turns) (hleft : engineStepsLeft s ≤ turns.count .engine) :
    ∃ n t, n ≤ turns.length ∧ core.run n s = .next t ∧ t.phase = .idle := by
  induction turns generalizing s with
  | nil =>
    refine ⟨0, s, Nat.le_refl _, rfl, by_contra fun hb => ?_⟩
    exact (engineStepsLeft_pos hi hb).ne' (Nat.le_zero.mp hleft)
  | cons turn rest ih =>
    by_cases hb : s.phase = .idle
    · exact ⟨0, s, Nat.zero_le _, rfl, hb⟩
    obtain ⟨hne, hreset⟩ := not_or.mp (mt List.mem_cons.mpr hreset)
    obtain ⟨u, hu⟩ := everyStepAnswersNext s
    have hn : nextTurn s = turn := by rw [nextTurn, hs]
    obtain ⟨hturns, hrst⟩ := takeTurn_outside hu
    have hrest : u.turns = rest := by rw [hturns, dropTurn_turns, hs, List.tail_cons]
    have hcount := engineStepsLeft_step hi hb hr hs (Ne.symm hne) hu
    have hleft' : engineStepsLeft u ≤ rest.count .engine := by
      rw [← List.singleton_append, List.count_append] at hleft
      omega
    obtain ⟨n, t, hle, hrun, hidle⟩ := ih hrest (everyStepKeepsTheInvariant s u hi hu)
      (hrst (hn ▸ Ne.symm hne) hr) hreset hleft'
    exact ⟨n + 1, t, Nat.succ_le_succ hle, (run_succ_of_step n hu).trans hrun, hidle⟩

/-- Settles O51: 162 engine turns are as many as any block needs. -/
theorem busyEndsWithin162EngineSteps : Obligations.BusyEndsWithin162EngineSteps := fun s hi hr hreset hcount =>
  run_reaches_idle s.turns rfl hi hr hreset ((engineStepsLeft_le s).trans hcount)

end Sys2Proof.Machine
end

section
/-! The opcode map as conditions on a word's three fields, and the decoder inverted both ways (spec/30_encoding.md R90 to
R93). -/

namespace Sys2Proof

/-- What R92's table says of each row: one of two masks, the wide one exactly for the two opcodes with an argument; ARG and
RSV 0 in the match word; the match word found again by the opcode. -/
theorem row_facts : ∀ r ∈ opcodeMap,
    (r.mask = 0xFFFFFFFF ∧ opField r.pattern ≠ 0x03 ∧ opField r.pattern ≠ 0x10 ∨
      r.mask = 0xFFFF80FF ∧ (opField r.pattern = 0x03 ∨ opField r.pattern = 0x10)) ∧
    argField r.pattern = 0 ∧ rsvField r.pattern = 0 ∧ r.op.pattern = r.pattern := by
  decide

theorem row_eq_of_opField_eq : ∀ r₁ ∈ opcodeMap, ∀ r₂ ∈ opcodeMap,
    opField r₁.pattern = opField r₂.pattern → r₁ = r₂ := by
  decide

/-- A row matches the words with its OP, RSV = 0, and ARG = 0 unless the opcode takes one (R91, R92). -/
theorem matches_iff_fields {r : OpRow} (hr : r ∈ opcodeMap) (c : Word) :
    r.matches c = true ↔ opField c = opField r.pattern ∧ rsvField c = 0 ∧
      (argField c = 0 ∨ opField c = 0x03 ∨ opField c = 0x10) := by
  obtain ⟨⟨hmask, h03, h10⟩ | ⟨hmask, htakes⟩, harg, hrsv, -⟩ := row_facts r hr
  · rw [matches_full hmask]
    constructor
    · rintro rfl
      exact ⟨rfl, hrsv, .inl harg⟩
    · rintro ⟨hop, hc, ha | h | h⟩
      · exact word_ext hop (ha.trans harg.symm) (hc.trans hrsv.symm)
      · exact absurd (hop.symm.trans h) h03
      · exact absurd (hop.symm.trans h) h10
  · rw [matches_arg hmask harg, hrsv]
    constructor
    · rintro ⟨hop, hc⟩
      exact ⟨hop, hc, .inr (hop ▸ htakes)⟩
    · rintro ⟨hop, hc, -⟩
      exact ⟨hop, hc⟩

/-- Settles O3: both rows have the word's OP, and the table lists each OP once. -/
theorem opcodeRowsAreDisjoint : Obligations.OpcodeRowsAreDisjoint := by
  intro r₁ h₁ r₂ h₂ c hm₁ hm₂
  have hop₁ := ((matches_iff_fields h₁ c).1 hm₁).1
  have hop₂ := ((matches_iff_fields h₂ c).1 hm₂).1
  exact row_eq_of_opField_eq r₁ h₁ r₂ h₂ (hop₁.symm.trans hop₂)

/-- The row that matches is the one the decoder reads: there is no other. -/
theorem decode_of_matches {r : OpRow} (hr : r ∈ opcodeMap) {c : Word} (hm : r.matches c = true) :
    decode c = .ok (r.op.instr (argField c)) := by
  cases hd : decode c with
  | error e => exact absurd hm (by simp [decode_error_iff.1 ⟨e, hd⟩ r hr])
  | ok i =>
    obtain ⟨r', hr', hm', rfl⟩ := row_of_decode hd
    rw [opcodeRowsAreDisjoint r hr r' hr' c hm hm']

theorem exists_row_of_opcode (o : Opcode) : ∃ r ∈ opcodeMap, r.op = o ∧ r.pattern = o.pattern := by
  obtain ⟨r, hfind⟩ : ∃ r, opcodeMap.find? (·.op == o) = some r := by cases o <;> exact ⟨_, rfl⟩
  exact ⟨r, List.mem_of_find?_eq_some hfind, by simpa using List.find?_some hfind, by simp [Opcode.pattern, hfind]⟩

@[simp] theorem Instr.opcode_instr_arg (i : Instr) : i.opcode.instr i.arg = i := by cases i <;> rfl

@[simp] theorem Opcode.opcode_instr (o : Opcode) (a : BitVec 7) : (o.instr a).opcode = o := by cases o <;> rfl

/-- Only the two opcodes that take an argument have an ARG field other than 0 (R91). -/
theorem Instr.arg_eq_zero_or_takesArg (i : Instr) :
    i.arg = 0 ∨ opField i.opcode.pattern = 0x03 ∨ opField i.opcode.pattern = 0x10 := by
  cases i
  case shaFinal n => exact .inr (.inl rfl)
  case keyPad len => exact .inr (.inr rfl)
  all_goals exact .inl rfl

/-- The argument a command is built with is the one it has, when its opcode takes one or the argument is 0. -/
theorem Opcode.arg_instr {o : Opcode} {a : BitVec 7}
    (h : a = 0 ∨ opField o.pattern = 0x03 ∨ opField o.pattern = 0x10) : (o.instr a).arg = a := by
  cases o
  case shaFinal => rfl
  case keyPad => rfl
  all_goals
    obtain rfl | h | h := h
    · rfl
    · exact absurd h (by decide)
    · exact absurd h (by decide)

/-- The three fields of a command's own word (R90 to R92). -/
theorem fields_encode (i : Instr) :
    opField (encode i) = opField i.opcode.pattern ∧ argField (encode i) = i.arg ∧ rsvField (encode i) = 0 := by
  cases i
  case shaFinal n => exact Laws.EncodedFields.shaFinal n
  case keyPad len => exact Laws.EncodedFields.keyPad len
  case nop => exact Laws.EncodedFields.nop
  case shaInit => exact Laws.EncodedFields.shaInit
  case shaCompress => exact Laws.EncodedFields.shaCompress
  case saveDigest => exact Laws.EncodedFields.saveDigest
  case msgFromDigest => exact Laws.EncodedFields.msgFromDigest
  case keyFromDigest => exact Laws.EncodedFields.keyFromDigest
  case hmacIpad => exact Laws.EncodedFields.hmacIpad
  case hmacOpad => exact Laws.EncodedFields.hmacOpad
  case hotpTrunc => exact Laws.EncodedFields.hotpTrunc
  case zeroize => exact Laws.EncodedFields.zeroize

/-- Settles O1: the command's word has the fields its opcode's row asks for, so that row is the one decoded, and it is read
with the command's own argument. -/
theorem decodeOfEncodeIsTheCommand : Obligations.DecodeOfEncodeIsTheCommand := by
  intro i
  obtain ⟨hop, harg, hrsv⟩ := fields_encode i
  obtain ⟨r, hr, hro, hrp⟩ := exists_row_of_opcode i.opcode
  have hm : r.matches (encode i) = true := by
    rw [matches_iff_fields hr, hop, harg, hrp]
    exact ⟨rfl, hrsv, i.arg_eq_zero_or_takesArg⟩
  rw [decode_of_matches hr hm, hro, harg, Instr.opcode_instr_arg]

/-- Settles O2: the word and the encoding of its command agree in OP, ARG and RSV, which are all 32 bits. -/
theorem decodedWordIsItsEncoding : Obligations.DecodedWordIsItsEncoding := by
  intro c i hd
  obtain ⟨r, hr, hm, rfl⟩ := row_of_decode hd
  obtain ⟨hop, hrsv, harg⟩ := (matches_iff_fields hr c).1 hm
  obtain ⟨-, -, -, hpat⟩ := row_facts r hr
  obtain ⟨hop', harg', hrsv'⟩ := fields_encode (r.op.instr (argField c))
  rw [Opcode.opcode_instr, hpat, ← hop] at hop'
  have htakes : (r.op.instr (argField c)).arg = argField c := Opcode.arg_instr (by rwa [hpat, ← hop])
  exact word_ext hop' (harg'.trans htakes) (hrsv'.trans hrsv.symm)

/-- The OP column of the opcode map (R92). -/
theorem opField_opcodeMap : opcodeMap.map (opField ·.pattern) =
    [0x00#8, 0x01, 0x02, 0x03, 0x04, 0x05, 0x10, 0x11, 0x12, 0x13, 0x20, 0x30] := by
  decide

/-- The positive form of R93: some row matches. -/
theorem exists_matches_iff (c : Word) :
    (∃ r ∈ opcodeMap, r.matches c = true) ↔
      opField c ∈ opcodeMap.map (opField ·.pattern) ∧ rsvField c = 0 ∧
        (argField c = 0 ∨ opField c = 0x03 ∨ opField c = 0x10) := by
  rw [List.mem_map]
  constructor
  · rintro ⟨r, hr, hm⟩
    obtain ⟨hop, hrest⟩ := (matches_iff_fields hr c).1 hm
    exact ⟨⟨r, hr, hop.symm⟩, hrest⟩
  · rintro ⟨⟨r, hr, hop⟩, hrest⟩
    exact ⟨r, hr, (matches_iff_fields hr c).2 ⟨hop.symm, hrest⟩⟩

theorem decode_error_iff_no_row (c : Word) : (∃ e, decode c = .error e) ↔ ¬ ∃ r ∈ opcodeMap, r.matches c = true := by
  rw [decode_error_iff]
  simp

/-- Settles O4: the negation of `exists_matches_iff`, and the CMD write of a word no row matches. -/
theorem wordFailsToMatchExactlyWhen : Obligations.WordFailsToMatchExactlyWhen := by
  refine fun c => ⟨?_, fun s hi ⟨e, he⟩ => Machine.writeCmd_of_error hi he⟩
  rw [decode_error_iff_no_row, exists_matches_iff, opField_opcodeMap, not_and_or, not_and_or, not_or, not_or]

/-- Settles O5: the decoder is run on each word; the rejections' names are the model's (notes/assumptions/10.md). -/
theorem wordsOfTheSpecDecode : Obligations.WordsOfTheSpecDecode := by
  unfold Obligations.WordsOfTheSpecDecode
  decide

end Sys2Proof
end

section
/-! Arguments out of range (spec/30_encoding.md R94). -/

namespace Sys2Proof.Machine

/-- A CMD write of the word of a command whose argument is out of range (R94, R210). -/
theorem writeCmd_encode_of_not_wf {i : Instr} {s : State} (hi : s.phase = .idle) (hw : i.wf = false) :
    writeCmd (encode i) s = .next (raiseError .errArg s) := by
  rw [writeCmd_of_ok s (decodeOfEncodeIsTheCommand i), exec_of_idle i hi, hw]
  rfl

/-- KEY_PAD 64 zeroes no byte (R161). -/
@[simp] theorem zeroKeyFrom_64 (k : Words16) : zeroKeyFrom 64 k = k := rfl

/-- Settles O11: both words are encodings of commands that are not well-formed, and KEY_PAD 64 is well-formed. -/
theorem argumentOutOfRangeSetsErrArg : Obligations.ArgumentOutOfRangeSetsErrArg := by
  refine ⟨fun s n hi hn => ?_, fun s len hi hlen => ?_, fun s hi => ⟨acceptedState (.keyPad 64) s, ?_, ?_, rfl⟩⟩
  · exact writeCmd_encode_of_not_wf (i := .shaFinal n) hi (by simpa [Instr.wf] using hn)
  · exact writeCmd_encode_of_not_wf (i := .keyPad len) hi (by simpa [Instr.wf] using hlen)
  · exact (writeCmd_of_ok s (decodeOfEncodeIsTheCommand (.keyPad 64))).trans (exec_of_idle _ hi)
  · exact zeroKeyFrom_64 s.k

end Sys2Proof.Machine
end

section
/-! The host's loads LDM and LDK (spec/30_encoding.md R104, spec/42_hotp.md R185). -/

namespace Sys2Proof.Machine

/-- The indices below n are the first n. -/
theorem filter_finRange_lt (m n : Nat) : (List.finRange m).filter (·.val < n) = (List.finRange m).take n := by
  induction m generalizing n with
  | zero => simp
  | succ m ih =>
    cases n with
    | zero => simp
    | succ n =>
      have hsucc : (fun i : Fin (m + 1) => decide (i.val < n + 1)) ∘ Fin.succ = fun i : Fin m => decide (i.val < n) := by
        funext i
        simp
      rw [List.finRange_succ, List.filter_cons_of_pos (by simp), List.filter_map, hsucc, ih, List.take_succ_cons,
        List.map_take]

/-- A load of k bytes writes the first ceil(k/4) words of its buffer (R104). -/
theorem loadItems_eq_take (buf : Fin 16 → Reg) (bytes : List Byte) :
    loadItems buf bytes =
      ((List.finRange 16).take ((bytes.length + 3) / 4)).map fun i => .wr (buf i) (loadWord bytes i) := by
  have hfirst : (fun i : Fin 16 => decide (4 * i.val < bytes.length)) =
      fun i => decide (i.val < (bytes.length + 3) / 4) := by
    funext i
    exact decide_eq_decide.2 (by omega)
  rw [loadItems, hfirst, filter_finRange_lt]

theorem length_loadItems (buf : Fin 16 → Reg) {bytes : List Byte} (h : bytes.length ≤ 64) :
    (loadItems buf bytes).length = (bytes.length + 3) / 4 := by
  rw [loadItems_eq_take, List.length_map, List.length_take, List.length_finRange]
  omega

theorem getElem?_loadItems (buf : Fin 16 → Reg) {bytes : List Byte} {i : Fin 16}
    (hi : i.val < (bytes.length + 3) / 4) : (loadItems buf bytes)[i.val]? = some (.wr (buf i) (loadWord bytes i)) := by
  simp [loadItems_eq_take, List.getElem?_take_of_lt hi]

/-- Byte r of word i of a load is byte 4i + r of the line, 0 past its end (R104). -/
theorem byte_loadWord (bytes : List Byte) (i : Nat) {r : Nat} (hr : r < 4) :
    (loadWord bytes i).extractLsb' (24 - 8 * r) 8 = bytes.getD (4 * i + r) 0 := by
  rw [loadWord, byte_packWord _ _ _ _ hr]
  interval_cases r <;> rfl

/-- LDM and LDK are one load, into M or into K (R104). -/
theorem expand_load {bytes : List Byte} {line : HostLine} {buf : Fin 16 → Reg}
    (h : (line = .ldm bytes ∧ buf = .m) ∨ (line = .ldk bytes ∧ buf = .k)) :
    line.expand = if bytes.length ≤ 64 then some (loadItems buf bytes) else none := by
  obtain ⟨rfl, rfl⟩ | ⟨rfl, rfl⟩ := h <;> rfl

/-- Settles O55: the number of lines, each line, and each byte of its word. -/
theorem loadsPackBytesBigEndian : Obligations.LoadsPackBytesBigEndian := by
  intro bytes line buf h
  rw [expand_load h]
  refine ⟨fun hlong => if_neg (Nat.not_le.2 hlong), fun hk =>
    ⟨loadItems buf bytes, if_pos hk, length_loadItems buf hk, fun i hi => ?_⟩⟩
  rw [length_loadItems buf hk] at hi
  exact ⟨loadWord bytes i, getElem?_loadItems buf hi, fun _ => byte_loadWord bytes i⟩

@[simp] theorem length_counterBytes (c : BitVec 64) : (counterBytes c).length = 8 := rfl

/-- A field inside a field is the field at the sum of their starts. -/
theorem extractLsb'_extractLsb'_of_le {w : Nat} (x : BitVec w) {a m b n : Nat} (h : b + n ≤ m) :
    (x.extractLsb' a m).extractLsb' b n = x.extractLsb' (a + b) n := by
  apply BitVec.eq_of_getLsbD_eq
  intro i hi
  have hin : b + i < m := by omega
  simp [hi, hin, Nat.add_assoc]

/-- Word i of the counter's load is its bits from 32 - 32i up (R185). -/
theorem loadWord_counterBytes (c : BitVec 64) {i : Nat} (hi : i < 2) :
    loadWord (counterBytes c) i = c.extractLsb' (32 - 32 * i) 32 := by
  apply word_eq_of_bytes
  intro q hq
  have hj : 4 * i + q < 8 := by omega
  have hbyte : (counterBytes c).getD (4 * i + q) 0 = lengthByte c (4 * i + q) := by
    simp [counterBytes, hj]
  have hstart : 56 - 8 * (4 * i + q) = 32 - 32 * i + (24 - 8 * q) := by omega
  rw [byte_loadWord _ _ hq, hbyte, lengthByte, hstart,
    extractLsb'_extractLsb'_of_le c (by omega)]

/-- Settles O56: eight bytes make two lines, the words 0 and 1 of the load. -/
theorem counterLoadsHighWordFirst : Obligations.CounterLoadsHighWordFirst := by
  intro c
  calc (HostLine.ldm (counterBytes c)).expand
      _ = some (loadItems .m (counterBytes c)) :=
        (expand_load (.inl ⟨rfl, rfl⟩)).trans (if_pos (by simp))
      _ = some [.wr (.m 0) (loadWord (counterBytes c) 0), .wr (.m 1) (loadWord (counterBytes c) 1)] := by
        rw [loadItems_eq_take, length_counterBytes]; rfl
      _ = some [.wr (.m 0) (c.extractLsb' 32 32), .wr (.m 1) (c.extractLsb' 0 32)] := by
        rw [loadWord_counterBytes c (by decide), loadWord_counterBytes c (by decide)]

end Sys2Proof.Machine
end

section
/-! How a CMD write of a word without a row, and a single-step command, are answered (spec/30_encoding.md R92, R93;
spec/60_exceptions.md R210, R218). -/

namespace Sys2Proof.Machine

theorem rejectedWhileBusy (i : Instr) : RejectedWhileBusy i := fun _ hb => exec_of_busy i hb

theorem rejectedAsOpcode_of_no_row {c : Word} (h : ¬ ∃ r ∈ opcodeMap, r.matches c = true) : RejectedAsOpcode c := by
  intro s hi
  obtain ⟨e, he⟩ := (decode_error_iff_no_row c).2 h
  exact writeCmd_of_error hi he

/-- RSV must be 0 for every opcode (R93). -/
theorem rejectedAsOpcode_of_rsv {c : Word} (h : rsvField c ≠ 0) : RejectedAsOpcode c :=
  rejectedAsOpcode_of_no_row fun hrow => h ((exists_matches_iff c).1 hrow).2.1

/-- Only the opcodes 0x03 and 0x10 take an argument, so any other has one word (R91 to R93). -/
theorem onlyEncoding {i : Instr} {word : Word} (hd : decode word = .ok i) (h03 : opField word ≠ 0x03)
    (h10 : opField word ≠ 0x10) : OnlyEncoding i word := by
  refine ⟨hd, fun c hop hfields => rejectedAsOpcode_of_no_row fun hrow => ?_⟩
  obtain ⟨-, hrsv, harg⟩ := (exists_matches_iff c).1 hrow
  rw [hop] at harg
  exact hfields.elim (fun ha => harg.elim ha fun htakes => htakes.elim h03 h10) fun hr => hr hrsv

theorem FrameExcept.trans {p q : Reg → Prop} {s t u : State} (hst : FrameExcept p s t) (htu : FrameExcept q t u) :
    FrameExcept (fun r => p r ∨ q r) s u where
  registers r hr := (htu.registers r fun h => hr (.inr h)).trans (hst.registers r fun h => hr (.inl h))
  sequencer := by simp only [htu.sequencer, hst.sequencer, and_self]
  working := by simp only [htu.working, hst.working, and_self]
  outside := by simp only [htu.outside, hst.outside, and_self]

theorem FrameExcept.mono {p q : Reg → Prop} {s t : State} (h : FrameExcept p s t) (hpq : ∀ r, p r → q r) :
    FrameExcept q s t :=
  ⟨fun r hr => h.registers r fun hp => hr (hpq r hp), h.sequencer, h.working, h.outside⟩

theorem frameExcept_setDone (b : Bool) (s : State) : FrameExcept (· = .status) s (setDone b s) where
  registers r hr := by
    cases r with
    | status => exact absurd rfl hr
    | _ => rfl
  sequencer := ⟨rfl, rfl, rfl, rfl⟩
  working := ⟨rfl, rfl⟩
  outside := ⟨rfl, rfl, rfl, rfl⟩

/-- A single-step command sets DONE around its effect, so what is said of the effect is what is left to prove (R210, R218). -/
theorem completesInItsStep {i : Instr} {changed : Reg → Prop} {effect : State → State → Prop}
    (hsingle : startsEngine i = false) (hwf : i.wf = true)
    (hstatus : ∀ s, (acceptedEffect i s).status = s.status)
    (hframe : ∀ s, FrameExcept changed s (acceptedEffect i s))
    (heffect : ∀ s, s.phase = .idle → effect s (acceptedState i s)) : CompletesInItsStep i changed effect := by
  intro s hi
  have hstate : acceptedState i s = setDone true (acceptedEffect i (setDone false s)) := by simp [acceptedState, hsingle]
  refine ⟨acceptedState i s, by rw [exec_of_idle i hi, if_pos hwf], ?_, ?_, heffect s hi⟩
  · rw [hstate, setDone_status, hstatus]
    rfl
  · rw [hstate]
    refine (((frameExcept_setDone false s).trans (hframe _)).trans (frameExcept_setDone true _)).mono fun r hr => ?_
    tauto

theorem frameExcept_shaInit (s : State) :
    FrameExcept (fun r => r = .mlen ∨ ∃ i, r = .h i) s (acceptedEffect .shaInit s) where
  registers r hr := by
    cases r with
    | mlen => exact absurd (.inl rfl) hr
    | h i => exact absurd (.inr ⟨i, rfl⟩) hr
    | _ => rfl
  sequencer := ⟨rfl, rfl, rfl, rfl⟩
  working := ⟨rfl, rfl⟩
  outside := ⟨rfl, rfl, rfl, rfl⟩

theorem frameExcept_saveDigest (s : State) : FrameExcept (fun r => ∃ i, r = .d i) s (acceptedEffect .saveDigest s) where
  registers r hr := by
    cases r with
    | d i => exact absurd ⟨i, rfl⟩ hr
    | _ => rfl
  sequencer := ⟨rfl, rfl, rfl, rfl⟩
  working := ⟨rfl, rfl⟩
  outside := ⟨rfl, rfl, rfl, rfl⟩

/-- Replacing M changes the words of M that differ, and no other register (R34). -/
theorem frameExcept_withM {changed : Fin 16 → Prop} (s : State) {m' : Words16}
    (hsame : ∀ i, ¬ changed i → m'[i] = s.m[i]) :
    FrameExcept (fun r => ∃ i, changed i ∧ r = .m i) s { s with m := m' } where
  registers r hr := by
    cases r with
    | m i => exact hsame i fun hc => hr ⟨i, hc, rfl⟩
    | _ => rfl
  sequencer := ⟨rfl, rfl, rfl, rfl⟩
  working := ⟨rfl, rfl⟩
  outside := ⟨rfl, rfl, rfl, rfl⟩

theorem messageFromDigest_of_lt (m : Words16) (d : Words5) (i : Fin 5) :
    (messageFromDigest m d)[i.val]'(Nat.lt_of_lt_of_le i.isLt (by decide)) = d[i] := by
  simp [messageFromDigest]

theorem messageFromDigest_of_ge (m : Words16) (d : Words5) (i : Fin 16) (hi : ¬ i.val < 5) :
    (messageFromDigest m d)[i] = m[i] := by
  simp [messageFromDigest, hi]

theorem frameExcept_msgFromDigest (s : State) :
    FrameExcept (fun r => ∃ i : Fin 16, i.val < 5 ∧ r = .m i) s (acceptedEffect .msgFromDigest s) :=
  frameExcept_withM s (m' := messageFromDigest s.m s.d) (messageFromDigest_of_ge s.m s.d)

/-- A second SHA_INIT finds H and MLEN as the first left them, and DONE set (R120). -/
theorem exec_shaInit_again {s : State} (hi : s.phase = .idle) :
    exec .shaInit (acceptedState .shaInit s) = .next (acceptedState .shaInit s) :=
  exec_of_idle .shaInit (s := acceptedState .shaInit s) hi

/-- Settles O18: the five words of H are those of R110. -/
theorem shaInitRule : Obligations.ShaInitRule :=
  ⟨rejectedWhileBusy _, onlyEncoding (by decide) (by decide) (by decide),
    completesInItsStep rfl rfl (fun _ => rfl) frameExcept_shaInit
      fun _ hi => ⟨rfl, rfl, rfl, rfl, rfl, rfl, exec_shaInit_again hi⟩⟩

/-- Settles O19: D is H. -/
theorem saveDigestRule : Obligations.SaveDigestRule :=
  ⟨rejectedWhileBusy _, onlyEncoding (by decide) (by decide) (by decide),
    completesInItsStep rfl rfl (fun _ => rfl) frameExcept_saveDigest fun _ _ _ => rfl⟩

/-- Settles O20: the first five words of M are D, the others stay. -/
theorem msgFromDigestRule : Obligations.MsgFromDigestRule := by
  refine ⟨rejectedWhileBusy _, onlyEncoding (by decide) (by decide) (by decide),
    completesInItsStep rfl rfl (fun _ => by simp only [acceptedEffect]) frameExcept_msgFromDigest fun s _ i => ?_⟩
  have hm : (acceptedState .msgFromDigest s).m = messageFromDigest s.m s.d := rfl
  rw [readReg, hm]
  exact messageFromDigest_of_lt s.m s.d i

end Sys2Proof.Machine
end

section
/-! One ROUND step and one FEED step, and the W buffer as the window of the schedule (spec/40_sha1_engine.md R111 to R113,
R116, R117). -/

namespace Sys2Proof.Machine

/-- The round constants by the ranges of R111. -/
theorem roundConstant_eq (t : Nat) : roundConstant t =
    if t ≤ 19 then 0x5A827999 else if t ≤ 39 then 0x6ED9EBA1 else if t ≤ 59 then 0x8F1BBCDC else 0xCA62C1D6 := by
  simp only [roundConstant, Nat.lt_succ_iff]

/-- The round function by the ranges of R112: Parity is both the second and the fourth. -/
theorem roundFunction_eq (t : Nat) (b c d : Word) : roundFunction t b c d =
    if t ≤ 19 then (b &&& c) ||| (~~~b &&& d)
    else if 40 ≤ t ∧ t ≤ 59 then (b &&& c) ||| (b &&& d) ||| (c &&& d)
    else b ^^^ c ^^^ d := by
  rw [roundFunction]
  rcases (by omega : t ≤ 19 ∨ (20 ≤ t ∧ t ≤ 39) ∨ (40 ≤ t ∧ t ≤ 59) ∨ 60 ≤ t) with h | h | h | h
  · rw [if_pos (by omega), if_pos h, choose]
  · rw [if_neg (by omega), if_pos (by omega), if_neg (by omega), if_neg (by omega), parity]
  · rw [if_neg (by omega), if_neg (by omega), if_pos (by omega), if_neg (by omega), if_pos h, majority]
  · rw [if_neg (by omega), if_neg (by omega), if_neg (by omega), if_neg (by omega), if_neg (by omega), parity]

/-- A ROUND step whatever t is: it moves the working registers, W and the sequencer, and does not end the block (R116). -/
theorem roundStep_eq {s : State} (hp : s.phase = .round) : ∃ t phase, phase ≠ .idle ∧ roundStep s =
    { s with work := roundWork s.t.toNat s.w[0] s.work, w := rotateWindow s.w, t := t, phase := phase } := by
  by_cases h : s.t = 79
  · exact ⟨s.t, .feed, nofun, roundStep_of_last h⟩
  · exact ⟨s.t + 1, s.phase, by rw [hp]; exact nofun, roundStep_of_lt h⟩

theorem rotateWindow_of_lt (w : Words16) {i : Fin 16} (hi : i.val < 15) :
    (rotateWindow w)[i] = w[i.val + 1]?.getD 0 := by
  have hin : i.val + 1 < 16 := by omega
  simp [rotateWindow, hi, hin]

theorem rotateWindow_last (w : Words16) : (rotateWindow w)[15] = nextScheduleWord w := by
  simp [rotateWindow]

/-- STATUS as a word depends on its bits and on BUSY alone (R23, R24). -/
theorem statusWord_congr {s t : State} (hs : t.status = s.status) (hb : t.busy = s.busy) : t.statusWord = s.statusWord := by
  simp only [State.statusWord, hs, hb]

/-- A ROUND step writes no register (R116). -/
theorem readReg_roundStep {s : State} (hp : s.phase = .round) (r : Reg) : readReg r (roundStep s) = readReg r s := by
  obtain ⟨t, phase, hphase, hstep⟩ := roundStep_eq hp
  have hbusy : s.phase ≠ .idle := by rw [hp]; exact nofun
  rw [hstep]
  cases r with
  | status => exact statusWord_congr rfl ((busy_eq_true hphase).trans (busy_eq_true hbusy).symm)
  | _ => rfl

/-- Settles O33: the round equation by the ranges of K and f, the window by its two cases, the end of the rounds by t. -/
theorem roundStepRule : Obligations.RoundStepRule := by
  intro s hp w k f t
  have ht : t = roundStep s := engineStep_of_round hp
  obtain ⟨_, _, -, hstep⟩ := roundStep_eq hp
  refine ⟨?_, fun i hi => ?_, ?_, fun h79 => ?_, fun h79 => ?_, fun r => by rw [ht, readReg_roundStep hp], ?_⟩
  · rw [ht, hstep, roundWork, roundFunction_eq, roundConstant_eq, rotl_eq_rotateLeft (by decide),
      rotl_eq_rotateLeft (by decide)]
  · rw [ht, hstep]
    exact rotateWindow_of_lt s.w hi
  · rw [ht, hstep, ← rotl_eq_rotateLeft (by decide)]
    exact rotateWindow_last s.w
  · rw [ht, roundStep_of_last h79]
    exact ⟨rfl, rfl⟩
  · rw [ht, roundStep_of_lt h79]
    exact ⟨hp, BitVec.toNat_add s.t 1⟩
  · rw [ht, hstep]
    exact ⟨rfl, rfl, rfl, rfl, rfl, rfl⟩

/-- Settles O34: the feed-forward is one update of H for both kinds of block; PEND2 tells them apart. -/
theorem feedStepRule : Obligations.FeedStepRule := by
  intro s hp t
  have ht : t = feedStep s := engineStep_of_feed hp
  obtain ⟨-, -, -, -, -, -, houtside⟩ := engineStep_keeps s
  refine ⟨?_, fun h2 => ?_, fun h2 => ?_, fun r hs hh => readReg_engineStep s hs hh, houtside⟩
  · cases h2 : s.pend2 with
    | false => rw [ht, feedStep_of_last h2]; rfl
    | true => rw [ht, feedStep_of_pending h2]; rfl
  · rw [ht, feedStep_of_pending h2]
    exact ⟨rfl, rfl, rfl, rfl, rfl, rfl⟩
  · rw [ht, feedStep_of_last h2]
    exact ⟨h2, rfl, rfl⟩

/-- Settles O35: the reference's schedule has the block's words and the recurrence, and the engine's window is
`scheduleWindow`. -/
theorem windowHoldsTheSchedule : Obligations.WindowHoldsTheSchedule := by
  refine ⟨fun blk i => scheduleWord_of_lt blk i.isLt, fun blk j hj => ?_, fun blk s n hn i => ?_⟩
  · obtain ⟨n, rfl⟩ := Nat.exists_eq_add_of_le' hj
    rw [scheduleWord_recurrence, rotl_eq_rotateLeft (by decide)]
    rfl
  · rw [engineSteps_startBlock blk s hn]
    simp [scheduleWindow]

end Sys2Proof.Machine
end

section
/-! The padding blocks byte by byte, against the padded message and for what they read of M (spec/40_sha1_engine.md R125,
R126, R171). -/

namespace Sys2Proof.Machine

/-- Byte j of the second padding block: zeros up to the bit length in bytes 56..63 (R126). -/
theorem byteOf_padBlock2 (bl : BitVec 64) {j : Nat} (hj : j < 64) :
    byteOf (padBlock2 bl) j = if 56 ≤ j then lengthByte bl (j - 56) else 0 := by
  have hword : j / 4 < 16 := by omega
  rw [byteOf, padBlock2, Vector.getElem?_eq_getElem hword, Option.getD_some, Vector.getElem_ofFn]
  dsimp only
  rcases (by omega : j < 56 ∨ j / 4 = 14 ∨ j / 4 = 15) with h | h | h
  · rw [if_neg (by omega), if_neg (by omega), if_neg (by omega)]
    simp
  · rw [if_pos h, if_pos (by omega), lengthByte, extractLsb'_extractLsb'_of_le bl (by omega)]
    congr 1
    omega
  · rw [if_neg (by omega), if_pos h, if_pos (by omega), lengthByte, extractLsb'_extractLsb'_of_le bl (by omega)]
    congr 1
    omega

/-- The first padding block reads only the first n bytes of M (R125). -/
theorem padBlock1_congr {m m' : Words16} {n : Nat} (h : ∀ j, j < n → byteOf m' j = byteOf m j) (bl : BitVec 64) :
    padBlock1 m' n bl = padBlock1 m n bl := by
  apply buffer_eq_of_bytes
  intro j hj
  rw [byteOf_padBlock1 _ _ _ hj, byteOf_padBlock1 _ _ _ hj]
  by_cases hn : j < n
  · rw [padByte1, padByte1, if_pos hn, if_pos hn, h j hn]
  · rw [padByte1, padByte1, if_neg hn, if_neg hn]

/-- Settles O30: M reaches the accepted state only through the first padding block, and as M itself. -/
theorem shaFinalIgnoresBytesPastN : Obligations.ShaFinalIgnoresBytesPastN := by
  intro s m' n hi hn hsame
  have hwf : (Instr.shaFinal n).wf = true := decide_eq_true hn
  refine ⟨acceptedState (.shaFinal n) s, by rw [exec_of_idle _ hi, if_pos hwf], ?_⟩
  have hstate : acceptedState (.shaFinal n) { s with m := m' } = { acceptedState (.shaFinal n) s with m := m' } := by
    have hblock := padBlock1_congr hsame (bitLength (s.mlen + BitVec.ofNat 32 (argCount n)))
    exact congrArg (fun w => { acceptedState (.shaFinal n) s with m := m', w := w }) hblock
  rw [exec_of_idle (.shaFinal n) (s := { s with m := m' }) hi, if_pos hwf, hstate]

/-- The zeros bring the padded message to a whole number of blocks (R125). -/
theorem zeroPadding_spec (length : Nat) : length + 1 + zeroPadding length + 8 =
    64 * (length / 64 + (if length % 64 ≤ 55 then 1 else 2)) := by
  unfold zeroPadding
  split <;> omega

theorem length_paddedMessage (message : List Byte) :
    (paddedMessage message).length = message.length + 1 + zeroPadding message.length + 8 := by
  simp only [paddedMessage, List.length_append, List.length_singleton, List.length_replicate, List.length_map,
    List.length_range]

/-- Byte j of block q of a sequence of bytes (R114). -/
theorem byteOf_blockAt (bytes : List Byte) (q : Nat) {j : Nat} (hj : j < 64) :
    byteOf (blockAt bytes q) j = bytes.getD (64 * q + j) 0 := byteOf_blockOfBytes _ hj

/-- The byte of the first padding block after the message bytes and 0x80 (R125). -/
theorem padByte1_of_gt (m : Words16) {n j : Nat} (bl : BitVec 64) (hj : n < j) :
    padByte1 m n bl j = if n ≤ 55 ∧ 56 ≤ j then lengthByte bl (j - 56) else 0 := by
  rw [padByte1, if_neg (by omega), if_neg (by omega)]

/-- The byte of the padded message after the message and 0x80, with the last block's start e in place of the count of zeros. -/
theorem paddedMessage_getD_of_gt {message : List Byte} {e j : Nat}
    (he : message.length + 1 + zeroPadding message.length = e + 56) (hj : message.length < j) (hje : j < e + 64) :
    (paddedMessage message).getD j 0 =
      if e + 56 ≤ j then lengthByte (BitVec.ofNat 64 (8 * message.length)) (j - (e + 56)) else 0 := by
  rw [paddedMessage_getD, he, if_neg (by omega), if_neg (by omega)]
  by_cases h : j < e + 56
  · rw [if_pos h, if_neg (by omega)]
  · rw [if_neg h, if_pos (by omega), if_pos (by omega)]

/-- Byte j of the first padding block is byte j of block L / 64 of the padded message (R125). -/
theorem padByte1_eq_paddedMessage {message : List Byte} {m : Words16} {j : Nat} (hj : j < 64)
    (hm : ∀ j, j < message.length % 64 → byteOf m j = message.getD (64 * (message.length / 64) + j) 0) :
    padByte1 m (message.length % 64) (BitVec.ofNat 64 (8 * message.length)) j =
      (paddedMessage message).getD (64 * (message.length / 64) + j) 0 := by
  have hpad := zeroPadding_spec message.length
  rcases Nat.lt_trichotomy j (message.length % 64) with h | h | h
  · rw [padByte1, if_pos h, hm j h, paddedMessage_getD, if_pos (by omega)]
  · rw [padByte1, if_neg (by omega), if_pos h, paddedMessage_getD, if_neg (by omega), if_pos (by omega)]
  · rw [padByte1_of_gt m _ h]
    by_cases h55 : message.length % 64 ≤ 55
    · rw [if_pos h55] at hpad
      rw [paddedMessage_getD_of_gt (e := 64 * (message.length / 64)) (by omega) (by omega) (by omega)]
      simp [h55, Nat.add_sub_add_left]
    · rw [if_neg h55] at hpad
      rw [paddedMessage_getD_of_gt (e := 64 * (message.length / 64 + 1)) (by omega) (by omega) (by omega),
        if_neg (by omega), if_neg (by omega)]

/-- Settles O29, byte by byte: `zeroPadding_spec` places the bit length in the last 8 bytes of the last block. -/
theorem paddingIsThePaddedMessage : Obligations.PaddingIsThePaddedMessage := by
  intro message m _ hm q n bl
  have hpad := zeroPadding_spec message.length
  refine ⟨(length_paddedMessage message).trans hpad, buffer_eq_of_bytes fun j hj => ?_,
    fun h56 => buffer_eq_of_bytes fun j hj => ?_⟩
  · rw [byteOf_padBlock1 _ _ _ hj, byteOf_blockAt _ _ hj]
    exact padByte1_eq_paddedMessage hj hm
  · have h55 : ¬ message.length % 64 ≤ 55 := Nat.not_le.2 h56
    rw [if_neg h55] at hpad
    rw [byteOf_padBlock2 _ hj, byteOf_blockAt _ _ hj,
      paddedMessage_getD_of_gt (e := 64 * (q + 1)) (by omega) (by omega) (by omega)]
    simp [Nat.add_sub_add_left, bl]

end Sys2Proof.Machine
end

section
/-! SHA_COMPRESS and SHA_FINAL from acceptance to completion (spec/40_sha1_engine.md R118, R121, R124, R126). -/

namespace Sys2Proof.Machine

/-- No engine step writes a register but H and STATUS, or anything outside the block (R74, R212). -/
theorem engineSteps_keeps (n : Nat) (s : State) :
    (∀ r, r ≠ .status → (∀ i, r ≠ .h i) → readReg r (engineSteps n s) = readReg r s) ∧
    (engineSteps n s).rstN = s.rstN ∧ (engineSteps n s).rdata = s.rdata ∧ (engineSteps n s).host = s.host ∧
    (engineSteps n s).turns = s.turns := by
  induction n with
  | zero => exact ⟨fun _ _ _ => rfl, rfl, rfl, rfl, rfl⟩
  | succ n ih =>
    obtain ⟨hregs, hrstN, hrdata, hhost, hturns⟩ := ih
    obtain ⟨-, -, -, -, -, -, hrstN', hrdata', hhost', hturns'⟩ := engineStep_keeps (engineSteps n s)
    rw [engineSteps_succ]
    exact ⟨fun r hs hh => (readReg_engineStep _ hs hh).trans (hregs r hs hh), hrstN'.trans hrstN, hrdata'.trans hrdata,
      hhost'.trans hhost, hturns'.trans hturns⟩

/-- The message bytes a command counts (R121, R124). -/
def messageBytes : Instr → Nat
  | .shaCompress => 64
  | .shaFinal n => argCount n
  | .nop | .shaInit | .saveDigest | .msgFromDigest | .keyPad _ | .keyFromDigest => 0
  | .hmacIpad | .hmacOpad | .hotpTrunc | .zeroize => 0

/-- What an accepted SHA_COMPRESS or SHA_FINAL shows at once: MLEN counts, DONE is cleared, a wrap sets LEN_OVF, and every
other register is as it was (R121, R124). -/
theorem acceptedState_counts {i : Instr} (hstarts : startsEngine i = true) (s : State) :
    (acceptedState i s).mlen.toNat = (s.mlen.toNat + messageBytes i) % 2 ^ 32 ∧
    (acceptedState i s).status =
      { s.status with done := false, lenOvf := s.status.lenOvf || decide (2 ^ 32 ≤ s.mlen.toNat + messageBytes i) } ∧
    ∀ r, r ≠ .mlen → r ≠ .status → readReg r (acceptedState i s) = readReg r s := by
  have hmlen : (acceptedState i s).mlen = s.mlen + BitVec.ofNat 32 (messageBytes i) := by
    obtain rfl | ⟨n, rfl⟩ := startsEngine_iff.1 hstarts <;> rfl
  have hregs : ∀ r, r ≠ .mlen → r ≠ .status → readReg r (acceptedState i s) = readReg r s := by
    intro r hm hs
    obtain rfl | ⟨n, rfl⟩ := startsEngine_iff.1 hstarts
    all_goals
      cases r with
      | mlen => exact absurd rfl hm
      | status => exact absurd rfl hs
      | _ => rfl
  refine ⟨?_, ?_, hregs⟩
  · rw [hmlen, BitVec.toNat_add, BitVec.toNat_ofNat, Nat.add_mod_mod]
  · obtain rfl | ⟨n, rfl⟩ := startsEngine_iff.1 hstarts <;> rfl

/-- MLEN wraps before it is multiplied, and eight times a word does not wrap in 64 bits (R124). -/
theorem bitLength_add (mlen : Word) (n : Nat) :
    bitLength (mlen + BitVec.ofNat 32 n) = BitVec.ofNat 64 (8 * ((mlen.toNat + n) % 2 ^ 32)) := by
  apply BitVec.eq_of_toNat_eq
  have hfactor : (8 : BitVec 64).toNat = 8 := rfl
  rw [bitLength, BitVec.toNat_mul, hfactor, BitVec.toNat_setWidth, BitVec.toNat_add, BitVec.toNat_ofNat,
    BitVec.toNat_ofNat, Nat.add_mod_mod]
  omega

/-- From t the engine is busy with STATUS unchanged for the given number of engine steps, and then done with H = h (R119,
R262). -/
structure EndsAfter (steps : Nat) (t : State) (h : Words5) : Prop where
  busy : ∀ n, n < steps → (engineSteps n t).phase ≠ .idle ∧ (engineSteps n t).status = t.status
  idle : (engineSteps steps t).phase = .idle
  digest : (engineSteps steps t).h = h
  done : (engineSteps steps t).status = { t.status with done := true }

/-- A last block takes 81 engine steps (R117, R119). -/
theorem endsAfter_block (blk : Words16) {s : State} (hp : s.pend2 = false) :
    EndsAfter 81 (startBlock blk s) (compress s.h blk) := by
  obtain ⟨_, _, _, hend⟩ := block_ends blk hp
  refine ⟨fun n hn => ?_, congrArg State.phase hend, congrArg State.h hend, congrArg State.status hend⟩
  obtain ⟨hphase, -, hstatus⟩ := block_not_ended blk s hn
  exact ⟨hphase, hstatus⟩

/-- With PEND2 = 1 the second padding block follows, compressed from the chaining value of the first (R117, R126). -/
theorem endsAfter_two_blocks (blk : Words16) {s : State} (hp : s.pend2 = true) :
    EndsAfter 162 (startBlock blk s) (compress (compress s.h blk) (padBlock2 s.bitlen)) := by
  have second := endsAfter_block (padBlock2 s.bitlen) (s := { s with h := compress s.h blk, pend2 := false }) rfl
  rw [← block_starts_second blk hp] at second
  have hsplit : engineSteps 162 (startBlock blk s) = engineSteps 81 (engineSteps 81 (startBlock blk s)) :=
    engineSteps_add 81 81 _
  have hmid : (engineSteps 81 (startBlock blk s)).status = s.status := by rw [block_starts_second blk hp]; rfl
  refine ⟨fun n hn => ?_, hsplit ▸ second.idle, hsplit ▸ second.digest, ?_⟩
  · by_cases hfirst : n < 81
    · obtain ⟨hphase, -, hstatus⟩ := block_not_ended blk s hfirst
      exact ⟨hphase, hstatus⟩
    · obtain ⟨k, rfl⟩ := Nat.exists_eq_add_of_le (Nat.not_lt.1 hfirst)
      obtain ⟨hphase, hstatus⟩ := second.busy k (by omega)
      rw [engineSteps_add]
      exact ⟨hphase, hstatus.trans hmid⟩
  · rw [hsplit, second.done, hmid]
    rfl

/-- An accepted SHA_COMPRESS starts the block of M with PEND2 = 0 (R121). -/
theorem acceptedState_shaCompress (s : State) :
    acceptedState .shaCompress s = startBlock s.m { addLength 64 (setDone false s) with pend2 := false } := rfl

/-- An accepted SHA_FINAL starts the first padding block; a second is pending when the length does not fit it (R124). -/
theorem acceptedState_shaFinal (n : BitVec 7) (s : State) :
    let bl := bitLength (s.mlen + BitVec.ofNat 32 n.toNat)
    acceptedState (.shaFinal n) s = startBlock (padBlock1 s.m n.toNat bl)
      { addLength n.toNat (setDone false s) with
        pend2 := decide (55 < n.toNat)
        bitlen := if n.toNat ≤ 55 then s.bitlen else bl } := rfl

/-- The blocks of an accepted SHA_FINAL (R124 to R126). -/
theorem endsAfter_shaFinal (n : BitVec 7) (s : State) {bl : BitVec 64}
    (hbl : bitLength (s.mlen + BitVec.ofNat 32 n.toNat) = bl) :
    EndsAfter (if n.toNat ≤ 55 then 81 else 162) (acceptedState (.shaFinal n) s)
      (if n.toNat ≤ 55 then compress s.h (padBlock1 s.m n.toNat bl)
        else compress (compress s.h (padBlock1 s.m n.toNat bl)) (padBlock2 bl)) := by
  rw [acceptedState_shaFinal, hbl]
  by_cases h : n.toNat ≤ 55
  · simp only [if_pos h]
    exact endsAfter_block (padBlock1 s.m n.toNat bl) (s := { addLength n.toNat (setDone false s) with
      pend2 := decide (55 < n.toNat), bitlen := s.bitlen }) (decide_eq_false (Nat.not_lt.2 h))
  · simp only [if_neg h]
    exact endsAfter_two_blocks (padBlock1 s.m n.toNat bl) (s := { addLength n.toNat (setDone false s) with
      pend2 := decide (55 < n.toNat), bitlen := bl }) (decide_eq_true (Nat.not_le.1 h))

/-- Settles O27: M is the one block, and until it ends `block_not_ended` keeps H. -/
theorem shaCompressRule : Obligations.ShaCompressRule := by
  refine ⟨rejectedWhileBusy _, onlyEncoding (by decide) (by decide) (by decide), fun s hi => ?_⟩
  obtain ⟨hmlen, hstatus, hother⟩ := acceptedState_counts (i := .shaCompress) rfl s
  refine ⟨acceptedState .shaCompress s, exec_of_idle _ hi, hmlen, hstatus, hother, ?_⟩
  have hrun : EndsAfter 81 (acceptedState .shaCompress s) (compress s.h s.m) := endsAfter_block s.m rfl
  obtain ⟨hregs, houtside⟩ := engineSteps_keeps 81 (acceptedState .shaCompress s)
  refine ⟨fun n hn => ?_, hrun.idle, hrun.digest, hrun.done, hregs, houtside⟩
  rw [acceptedState_shaCompress]
  obtain ⟨hphase, hh, hdone⟩ := block_not_ended s.m { addLength 64 (setDone false s) with pend2 := false } hn
  exact ⟨hphase, hh, congrArg Status.done hdone⟩

/-- Settles O28: the acceptance is the same for every n, the blocks are those of `endsAfter_shaFinal`. -/
theorem shaFinalRule : Obligations.ShaFinalRule := by
  refine ⟨fun n => rejectedWhileBusy _, fun n => decodeOfEncodeIsTheCommand (.shaFinal n),
    fun c _ hrsv => rejectedAsOpcode_of_rsv hrsv, fun n s hi hn => ?_, fun n s hi hn => ?_⟩
  · have hwf : (Instr.shaFinal n).wf = false := decide_eq_false (Nat.not_le.2 hn)
    rw [exec_of_idle _ hi, hwf]
    rfl
  · have hwf : (Instr.shaFinal n).wf = true := decide_eq_true hn
    obtain ⟨hmlen, hstatus, hother⟩ := acceptedState_counts (i := .shaFinal n) rfl s
    refine ⟨acceptedState (.shaFinal n) s, by rw [exec_of_idle _ hi, if_pos hwf], ?_⟩
    intro len bl steps first
    have hrun := endsAfter_shaFinal n s (bitLength_add s.mlen n.toNat)
    have hbusy : ∀ k, k < steps → (engineSteps k (acceptedState (.shaFinal n) s)).phase ≠ .idle ∧
        (engineSteps k (acceptedState (.shaFinal n) s)).status.done = false := by
      intro k hk
      obtain ⟨hphase, hkeep⟩ := hrun.busy k hk
      exact ⟨hphase, by rw [hkeep, hstatus]⟩
    obtain ⟨hregs, houtside⟩ := engineSteps_keeps steps (acceptedState (.shaFinal n) s)
    exact ⟨hmlen, hstatus, hother, hbusy, hrun.idle, hrun.digest, hrun.done, hregs, houtside⟩

end Sys2Proof.Machine
end

section
/-! The HMAC key normalizer and its pads (spec/41_hmac_key.md R160 to R172). -/

namespace Sys2Proof.Machine

/-- KEY_PAD and KEY_FROM_DIGEST replace K and touch no other register (R35). -/
theorem frameExcept_withK (s : State) (k' : Words16) : FrameExcept (fun r => ∃ i, r = .k i) s { s with k := k' } where
  registers r hr := by
    cases r with
    | k i => exact absurd ⟨i, rfl⟩ hr
    | _ => rfl
  sequencer := ⟨rfl, rfl, rfl, rfl⟩
  working := ⟨rfl, rfl⟩
  outside := ⟨rfl, rfl, rfl, rfl⟩

theorem exec_of_idle_of_wf {i : Instr} {s : State} (hi : s.phase = .idle) (hwf : i.wf = true) :
    exec i s = .next (acceptedState i s) := by
  rw [exec_of_idle i hi, if_pos hwf]

@[simp] theorem acceptedState_keyPad_k (len : BitVec 7) (s : State) :
    (acceptedState (.keyPad len) s).k = zeroKeyFrom len.toNat s.k := rfl

@[simp] theorem acceptedState_keyFromDigest_k (s : State) :
    (acceptedState .keyFromDigest s).k = keyOfDigest s.h := rfl

/-- Settles O24: the bytes are those of `byteOf_zeroKeyFrom`. -/
theorem keyPadRule : Obligations.KeyPadRule := by
  refine ⟨fun len => rejectedWhileBusy _, fun len => decodeOfEncodeIsTheCommand (.keyPad len),
    fun c _ hrsv => rejectedAsOpcode_of_rsv hrsv, fun len s hi hlen => ?_, fun len hlen => ?_⟩
  · have hwf : (Instr.keyPad len).wf = false := decide_eq_false (Nat.not_le.2 hlen)
    rw [exec_of_idle _ hi, hwf]
    rfl
  · have hwf : (Instr.keyPad len).wf = true := decide_eq_true hlen
    refine completesInItsStep rfl hwf (fun _ => by rw [acceptedEffect]) (fun s => frameExcept_withK s _) fun s _ j hj => ?_
    exact byteOf_zeroKeyFrom s.k hlen hj

/-- A byte is read from its word alone, so buffers of any two sizes that share the word share the byte (R8). -/
theorem byteOf_congr {m n j : Nat} {x : Vector Word m} {y : Vector Word n} (h : x[j / 4]? = y[j / 4]?) :
    byteOf x j = byteOf y j := by
  rw [byteOf, byteOf, h]

/-- A key buffer whose first five words are the digest has its bytes as the first 20 (R162). -/
theorem byteOf_of_digest_words {k : Words16} {h : Words5} (hk : ∀ i : Fin 5, k[i.castLE (by decide : 5 ≤ 16)] = h[i])
    {j : Nat} (hj : j < 20) : byteOf k j = byteOf h j := by
  have hi : j / 4 < 5 := by omega
  have hword : k[j / 4] = h[j / 4] := hk ⟨j / 4, hi⟩
  apply byteOf_congr
  rw [Vector.getElem?_eq_getElem (by omega), Vector.getElem?_eq_getElem hi, hword]

theorem keyOfDigest_of_lt (h : Words5) (i : Fin 5) : (keyOfDigest h)[i.castLE (by decide : 5 ≤ 16)] = h[i] := by
  simp [keyOfDigest]

theorem keyOfDigest_of_ge (h : Words5) {i : Fin 16} (hi : 5 ≤ i.val) : (keyOfDigest h)[i] = 0 := by
  simp [keyOfDigest, Nat.not_lt.2 hi]

/-- The bytes of the normalized key of a digest (R160, R162). -/
theorem byteOf_keyOfDigest (h : Words5) {j : Nat} (hj : j < 64) :
    byteOf (keyOfDigest h) j = if j < 20 then byteOf h j else 0 := by
  split
  · next hlt => exact byteOf_of_digest_words (keyOfDigest_of_lt h) hlt
  · next hge =>
    have hword : (keyOfDigest h)[j / 4] = 0 := keyOfDigest_of_ge h (i := ⟨j / 4, by omega⟩) (show 5 ≤ j / 4 by omega)
    rw [byteOf, Vector.getElem?_eq_getElem (by omega), hword]
    simp

/-- Zeroing a key buffer after the 20 bytes of a digest leaves the digest's own normalized key (R172). -/
theorem zeroKeyFrom_20_of_digest_words {k : Words16} {h : Words5}
    (hk : ∀ i : Fin 5, k[i.castLE (by decide : 5 ≤ 16)] = h[i]) : zeroKeyFrom 20 k = keyOfDigest h := by
  apply buffer_eq_of_bytes
  intro j hj
  rw [byteOf_zeroKeyFrom k (by decide) hj, byteOf_keyOfDigest h hj]
  split
  · next hlt => exact byteOf_of_digest_words hk hlt
  · rfl

/-- Settles O31: the two keys agree byte by byte. -/
theorem longKeyEqualsItsDigestAsKey : Obligations.LongKeyEqualsItsDigestAsKey := by
  intro s s' hi hi' hk
  refine ⟨_, _, exec_of_idle_of_wf hi rfl, exec_of_idle_of_wf hi' rfl, ?_⟩
  rw [acceptedState_keyFromDigest_k, acceptedState_keyPad_k]
  exact (zeroKeyFrom_20_of_digest_words hk).symm

/-- A key of L bytes has only zeros from byte L on (R160). -/
theorem normalizedKeyByte_of_ge {key : List Byte} {j : Nat} (hj : key.length ≤ j) : normalizedKeyByte key j = 0 :=
  List.getD_eq_default key 0 hj

/-- Settles O32: the bytes before L are the key's, the bytes from L on are zeroed. -/
theorem keyPadNormalizesTheKey : Obligations.KeyPadNormalizesTheKey := by
  intro key s hlen hi hkey
  have htoNat : (BitVec.ofNat 7 key.length).toNat = key.length := Nat.mod_eq_of_lt (by omega)
  have hwf : (Instr.keyPad (BitVec.ofNat 7 key.length)).wf = true := decide_eq_true (by omega)
  refine ⟨_, exec_of_idle_of_wf hi hwf, fun j hj => ?_⟩
  rw [acceptedState_keyPad_k, htoNat, byteOf_zeroKeyFrom s.k hlen hj]
  split
  · next hlt => exact hkey j hlt
  · next hge => exact (normalizedKeyByte_of_ge (Nat.not_lt.1 hge)).symm

/-- Settles O21: the words are those of `keyOfDigest`. -/
theorem keyFromDigestRule : Obligations.KeyFromDigestRule :=
  ⟨rejectedWhileBusy _, onlyEncoding (by decide) (by decide) (by decide),
    completesInItsStep rfl rfl (fun _ => by rw [acceptedEffect]) (fun s => frameExcept_withK s _)
      fun s _ => ⟨keyOfDigest_of_lt s.h, fun _ => keyOfDigest_of_ge s.h⟩⟩

theorem getElem_xorPad (pad : Word) (k : Words16) (i : Fin 16) : (xorPad pad k)[i] = k[i] ^^^ pad := by
  simp [xorPad]

/-- HMAC_IPAD and HMAC_OPAD form their block in M alike, up to the pad word (R164, R165). -/
theorem completesInItsStep_of_xorPad {i : Instr} (pad : Word) (hsingle : startsEngine i = false) (hwf : i.wf = true)
    (heffect : ∀ s, acceptedEffect i s = { s with m := xorPad pad s.k }) :
    CompletesInItsStep i (fun r => ∃ j, r = .m j) fun s t => ∀ j, readReg (.m j) t = readReg (.k j) s ^^^ pad := by
  refine completesInItsStep hsingle hwf (fun s => by rw [heffect]) (fun s => ?_) fun s _ j => ?_
  · rw [heffect]
    exact (frameExcept_withM (changed := fun _ => True) s fun _ h => absurd trivial h).mono
      fun _ ⟨j, _, hj⟩ => ⟨j, hj⟩
  · have hm : (acceptedState i s).m = xorPad pad s.k := by simp [acceptedState, hsingle, heffect]
    rw [readReg, hm]
    exact getElem_xorPad pad s.k j

/-- Settles O22: the pad word is IPADW. -/
theorem hmacIpadRule : Obligations.HmacIpadRule :=
  ⟨rejectedWhileBusy _, onlyEncoding (by decide) (by decide) (by decide),
    completesInItsStep_of_xorPad ipadWord rfl rfl fun _ => rfl⟩

/-- Settles O23: the pad word is OPADW. -/
theorem hmacOpadRule : Obligations.HmacOpadRule :=
  ⟨rejectedWhileBusy _, onlyEncoding (by decide) (by decide) (by decide),
    completesInItsStep_of_xorPad opadWord rfl rfl fun _ => rfl⟩

end Sys2Proof.Machine
end

section
/-! HOTP_TRUNC: truncation, decimal reduction and digits (spec/42_hotp.md R180 to R182, R190). -/

namespace Sys2Proof.Machine

/-- HOTP_TRUNC replaces the four results and touches no other register (R37 to R40, R181). -/
theorem frameExcept_hotpTrunc (s : State) :
    FrameExcept (fun r => r = .hotpOffset ∨ r = .hotpTrunc ∨ r = .hotpCode ∨ r = .hotpBcd) s
      (acceptedEffect .hotpTrunc s) where
  registers r hr := by
    cases r with
    | hotpOffset => exact absurd (.inl rfl) hr
    | hotpTrunc => exact absurd (.inr (.inl rfl)) hr
    | hotpCode => exact absurd (.inr (.inr (.inl rfl))) hr
    | hotpBcd => exact absurd (.inr (.inr (.inr rfl))) hr
    | _ => rfl
  sequencer := ⟨rfl, rfl, rfl, rfl⟩
  working := ⟨rfl, rfl⟩
  outside := ⟨rfl, rfl, rfl, rfl⟩

@[simp] theorem acceptedState_hotpTrunc_hotp (s : State) : (acceptedState .hotpTrunc s).hotp = hotpResults s.d := rfl

@[simp] theorem toNat_readReg_hotpOffset (s : State) : (readReg .hotpOffset s).toNat = s.hotp.offset.toNat :=
  BitVec.toNat_setWidth_of_le (by decide)

@[simp] theorem toNat_readReg_hotpTrunc (s : State) : (readReg .hotpTrunc s).toNat = s.hotp.trunc.toNat :=
  BitVec.toNat_setWidth_of_le (by decide)

@[simp] theorem toNat_readReg_hotpCode (s : State) : (readReg .hotpCode s).toNat = s.hotp.code.toNat :=
  BitVec.toNat_setWidth_of_le (by decide)

@[simp] theorem toNat_readReg_hotpBcd (s : State) : (readReg .hotpBcd s).toNat = s.hotp.bcd.toNat :=
  BitVec.toNat_setWidth_of_le (by decide)

/-- The offset is the low nibble of D4: byte 19 is its last byte (R180). -/
theorem toNat_truncOffset (d : Words5) : (truncOffset d).toNat = d[4].toNat % 16 := by
  have hbyte : byteOf d 19 = d[4].extractLsb' 0 8 := by simp [byteOf]
  rw [truncOffset, hbyte, BitVec.extractLsb'_toNat, BitVec.extractLsb'_toNat, Nat.shiftRight_zero, Nat.shiftRight_zero]
  exact Nat.mod_mod_of_dvd _ (by decide)

/-- The word form of R180: the truncated value is a window of the 160-bit string of D. -/
theorem truncValue_eq_extractLsb' (d : Words5) : truncValue d =
    (d[0] ++ d[1] ++ d[2] ++ d[3] ++ d[4] : BitVec 160).extractLsb' (128 - 8 * (truncOffset d).toNat) 31 := by
  apply BitVec.eq_of_getLsbD_eq
  intro i hi
  rw [getLsbD_truncValue d hi, BitVec.getLsbD_extractLsb', decide_eq_true hi, Bool.true_and]

theorem toNat_truncValue (d : Words5) : (truncValue d).toNat =
    ((d[0] ++ d[1] ++ d[2] ++ d[3] ++ d[4] : BitVec 160).toNat >>> (128 - 8 * (d[4].toNat % 16))) % 2 ^ 31 := by
  rw [truncValue_eq_extractLsb', BitVec.extractLsb'_toNat, toNat_truncOffset]

/-- The byte form of R180. -/
theorem toNat_truncValue_bytes (d : Words5) : (truncValue d).toNat =
    (packWord (byteOf d (d[4].toNat % 16)) (byteOf d (d[4].toNat % 16 + 1)) (byteOf d (d[4].toNat % 16 + 2))
      (byteOf d (d[4].toNat % 16 + 3))).toNat % 2 ^ 31 := by
  rw [truncValue, BitVec.toNat_setWidth, toNat_truncOffset]

/-- Settles O25: the window in its two forms, its code by `toNat_hotpResults_code` and its digits by `toNat_hotpBcd`. -/
theorem hotpTruncRule : Obligations.HotpTruncRule := by
  refine ⟨rejectedWhileBusy _, onlyEncoding (by decide) (by decide) (by decide),
    completesInItsStep rfl rfl (fun _ => rfl) frameExcept_hotpTrunc fun s _ => ?_⟩
  intro mac offset p code
  have hp : (truncValue s.d).toNat = p := toNat_truncValue s.d
  have hcode : hotpCode (truncValue s.d) = code := congrArg (· % 1000000) hp
  rw [toNat_readReg_hotpOffset, toNat_readReg_hotpTrunc, toNat_readReg_hotpCode, toNat_readReg_hotpBcd,
    acceptedState_hotpTrunc_hotp]
  refine ⟨toNat_truncOffset s.d, hp, toNat_truncValue_bytes s.d, (toNat_hotpResults_code s.d).trans hcode, ?_⟩
  rw [← hcode]
  exact toNat_hotpBcd (hotpCode (truncValue s.d))

/-- Settles O26: the ranges are those of the fields and of the modulus, and equal D gives equal `hotpResults`. -/
theorem hotpResultsInRangeAndOfDAlone : Obligations.HotpResultsInRangeAndOfDAlone := by
  intro s hi
  refine ⟨_, exec_of_idle_of_wf hi rfl, ?_, ?_, ?_, fun s' t' hi' hd hs' => ?_⟩
  · rw [toNat_readReg_hotpCode, acceptedState_hotpTrunc_hotp, toNat_hotpResults_code]
    exact Nat.le_of_lt_succ (Nat.mod_lt _ (by decide))
  · rw [toNat_readReg_hotpOffset]
    exact Nat.le_of_lt_succ (BitVec.isLt _)
  · rw [toNat_readReg_hotpTrunc]
    exact BitVec.isLt _
  · rw [exec_of_idle_of_wf hi' rfl] at hs'
    obtain rfl := Host.Outcome.next.inj hs'
    simp only [readReg, acceptedState_hotpTrunc_hotp, hd, and_self]

end Sys2Proof.Machine
end

section
/-! The control commands NOP and ZEROIZE (spec/43_control.md R200, R201). -/

namespace Sys2Proof.Machine

theorem FrameExcept.refl (changed : Reg → Prop) (s : State) : FrameExcept changed s s where
  registers _ _ := rfl
  sequencer := ⟨rfl, rfl, rfl, rfl⟩
  working := ⟨rfl, rfl⟩
  outside := ⟨rfl, rfl, rfl, rfl⟩

/-- Settles O16: NOP has no effect of its own, so DONE is all that is left. -/
theorem nopRule : Obligations.NopRule :=
  ⟨rejectedWhileBusy _, onlyEncoding (by decide) (by decide) (by decide),
    completesInItsStep rfl rfl (fun _ => rfl) (FrameExcept.refl _) fun _ _ => trivial⟩

theorem getElem_zero5 (i : Fin 5) : zero5[i] = 0 := Vector.getElem_replicate i.isLt

theorem getElem_zero16 (i : Fin 16) : zero16[i] = 0 := Vector.getElem_replicate i.isLt

theorem acceptedState_zeroize (s : State) : acceptedState .zeroize s = setDone true (clearData s) := rfl

/-- The registers ZEROIZE does not clear are ID, STATUS and INTEN (R201). -/
theorem readReg_clearData {r : Reg} (s : State) (hid : r ≠ .id) (hstatus : r ≠ .status) (hinten : r ≠ .inten) :
    readReg r (clearData s) = 0 := by
  cases r with
  | id => exact absurd rfl hid
  | status => exact absurd rfl hstatus
  | inten => exact absurd rfl hinten
  | h i | d i => exact getElem_zero5 i
  | m i | k i => exact getElem_zero16 i
  | cmd | mlen | hotpOffset | hotpTrunc | hotpCode | hotpBcd => rfl

/-- Settles O17: what `clearData` clears reads 0, and setting DONE touches STATUS alone. -/
theorem zeroizeRule : Obligations.ZeroizeRule := by
  refine ⟨rejectedWhileBusy _, onlyEncoding (by decide) (by decide) (by decide), fun s hi => ?_⟩
  have hregs (r : Reg) (hid : r ≠ .id) (hstatus : r ≠ .status) (hinten : r ≠ .inten) :
      readReg r (acceptedState .zeroize s) = 0 := by
    rw [acceptedState_zeroize, (frameExcept_setDone true _).registers r hstatus, readReg_clearData s hid hstatus hinten]
  exact ⟨acceptedState .zeroize s, exec_of_idle_of_wf hi rfl, rfl, rfl, hregs, rfl, getElem_zero16, rfl, rfl, hi, rfl, rfl,
    rfl, rfl, rfl⟩

end Sys2Proof.Machine
end

section
/-! Acceptance, rejection and the interrupt line (spec/60_exceptions.md R210, R211, R218, R220). -/

namespace Sys2Proof.Machine

/-- Settles O9: the state after is the accepted one, and whether the command starts the engine decides its phase and DONE. -/
theorem everyAcceptedCommandAnswersNext : Obligations.EveryAcceptedCommandAnswersNext := by
  intro i s hwf hi
  have hphase := acceptedState_phase i hi
  obtain ⟨hbusy, hopcode, harg, haccess, -, hdone⟩ := acceptedState_status i s
  refine ⟨acceptedState i s, exec_of_idle_of_wf hi hwf, ?_, hbusy, hopcode, harg, haccess⟩
  cases i <;> exact ⟨hphase, hdone⟩

/-- Settles O10: one clause per check of R210, in its order, and one for the access that is not admitted. -/
theorem onlyTheFirstRejectionIsReported : Obligations.OnlyTheFirstRejectionIsReported := by
  refine ⟨fun s c hb => writeCmd_of_busy c hb, fun s c e hi hd => writeCmd_of_error hi hd, fun s c i hi hd hwf => ?_,
    fun s a hr ha => ⟨_, narrowOrMisalignedAccessRefused s a hr ha, rfl⟩⟩
  rw [writeCmd_of_ok s hd, exec_of_idle i hi, hwf]
  rfl

/-- Settles O14: ERR_ANY is read off STATUS[6:2], and DONE, DONE_IE and ERR_IE are bits of their words. -/
theorem interruptLineFollowsStatus : Obligations.InterruptLineFollowsStatus := by
  intro s
  have hdone : (readReg .status s).getLsbD 1 = s.status.done := by rw [readReg, getLsbD_statusWord]; simp
  have hdoneIe : (readReg .inten s).getLsbD 0 = s.inten.doneIe := by rw [readReg, getLsbD_intenWord]; simp
  have herrIe : (readReg .inten s).getLsbD 1 = s.inten.errIe := by rw [readReg, getLsbD_intenWord]; simp
  rw [hdone, hdoneIe, herrIe, State.irq, errAny_eq, readReg]

end Sys2Proof.Machine
end

section
/-! Which bit of STATUS[6:1] a step can raise (spec/60_exceptions.md R211, R221). -/

namespace Sys2Proof.Machine

/-- From s to t no bit of STATUS[6:1] but bit n goes from 0 to 1. -/
def RaisesOnly (n : Nat) (s t : State) : Prop :=
  ∀ i, 1 ≤ i → i ≤ 6 → i ≠ n → t.statusWord.getLsbD i = true → s.statusWord.getLsbD i = true

/-- Where no error bit rises, DONE is the only bit left. -/
theorem raisesOnly_done {s t : State} (h : t.status.ErrorsKept s.status) : RaisesOnly 1 s t := by
  obtain ⟨hbusy, hopcode, harg, haccess, hovf⟩ := h
  intro i h1 h6 hne
  rw [getLsbD_statusWord, getLsbD_statusWord]
  interval_cases i
  · exact absurd rfl hne
  · simpa using hbusy
  · simpa using hopcode
  · simpa using harg
  · simpa using haccess
  · simpa using hovf

/-- The bit of STATUS an error kind sets (R215). -/
def ErrorKind.bit : ErrorKind → Nat
  | .errBusy => 2
  | .errOpcode => 3
  | .errArg => 4
  | .errAccess => 5

theorem getLsbD_statusWord_raiseError (kind : ErrorKind) (s : State) (i : Nat) :
    (raiseError kind s).statusWord.getLsbD i = (s.statusWord.getLsbD i || decide (i = kind.bit)) := by
  have hbusy : (raiseError kind s).busy = s.busy := rfl
  rw [getLsbD_statusWord, getLsbD_statusWord, hbusy]
  by_cases hi : i = kind.bit
  · subst hi
    cases kind <;> simp [ErrorKind.bit, Status.raise]
  · cases kind <;> simp_all [ErrorKind.bit, Status.raise]

theorem raisesOnly_raiseError (kind : ErrorKind) (s : State) : RaisesOnly kind.bit s (raiseError kind s) := by
  intro i _ _ hne
  simp [getLsbD_statusWord_raiseError, hne]

theorem errorsKept_w1c (f : Status) (v : Word) : (f.w1c v).ErrorsKept f := by
  constructor <;> exact fun h => (Bool.and_eq_true_iff.mp h).1

/-- A command that starts the engine leaves DONE 0 and can set LEN_OVF; any other sets DONE and leaves LEN_OVF. -/
theorem raisesOnly_acceptedState (i : Instr) (s : State) :
    RaisesOnly (if startsEngine i then 6 else 1) s (acceptedState i s) := by
  obtain ⟨hbusy, hopcode, harg, haccess, -, hdone⟩ := acceptedState_status i s
  cases hstart : startsEngine i
  · have hovf := (acceptedState_lenOvf i s).resolve_right (by simp [hstart])
    exact raisesOnly_done ⟨hbusy ▸ id, hopcode ▸ id, harg ▸ id, haccess ▸ id, hovf ▸ id⟩
  · intro j h1 h6 hne
    rw [getLsbD_statusWord, getLsbD_statusWord, hbusy, hopcode, harg, haccess, hdone, hstart]
    interval_cases j <;> simp at hne ⊢

/-- Each effect of a step has one bit of STATUS[6:1] it can raise. -/
theorem step_raisesOnly {s t : State} (h : step s = .next t) : ∃ n, RaisesOnly n s t := by
  obtain ⟨u, rdata, host, turns, he, rfl⟩ := step_effect h
  show ∃ n, RaisesOnly n s u
  cases he with
  | quiet => exact ⟨1, raisesOnly_done (errorsKept_refl _)⟩
  | engine _ _ =>
    refine ⟨1, raisesOnly_done ?_⟩
    rcases engineStep_status s with hs | hs <;> rw [hs] <;> exact ⟨id, id, id, id, id⟩
  | reset _ => exact ⟨1, raisesOnly_done ⟨nofun, nofun, nofun, nofun, nofun⟩⟩
  | release => exact ⟨1, raisesOnly_done (errorsKept_refl _)⟩
  | raise kind _ => exact ⟨kind.bit, raisesOnly_raiseError kind s⟩
  | store r v _ _ _ _ =>
    refine ⟨1, raisesOnly_done ?_⟩
    rcases storeReg_status r v s with hs | ⟨_, hs⟩ <;> rw [hs]
    · exact errorsKept_refl _
    · exact errorsKept_w1c s.status v
  | command _ i _ _ _ _ => exact ⟨_, raisesOnly_acceptedState i s⟩

/-- Settles O13: both bits are the one the step can raise. -/
theorem atMostOneEventBitPerStep : Obligations.AtMostOneEventBitPerStep := by
  intro s t h i j hi1 hi6 hj1 hj6 hsi hti hsj htj
  obtain ⟨n, hn⟩ := step_raisesOnly h
  have hi : i = n := by_contra fun hne => by simp [hn i hi1 hi6 hne hti] at hsi
  have hj : j = n := by_contra fun hne => by simp [hn j hj1 hj6 hne htj] at hsj
  rw [hi, hj]

end Sys2Proof.Machine
end

section
/-! The reset state and the reset pin (spec/70_reset_and_hazards.md R250, R251). -/

namespace Sys2Proof.Machine

/-- Settles O50: the reset state is idle with `rst_n` high. -/
theorem resetMeetsTheInvariant : Obligations.ResetMeetsTheInvariant := inv_of_idle rfl rfl rfl consistent_zero

theorem resetValue_of_ne_id {r : Reg} (h : r ≠ .id) : resetValue r = 0 := by
  cases r
  case id => exact absurd rfl h
  all_goals rfl

/-- Settles O54: every register reads its reset value, which is 0 for all but ID. -/
theorem resetStateIsAsStated : Obligations.ResetStateIsAsStated :=
  ⟨readReg_reset .id, fun r hr => (readReg_reset r).trans (resetValue_of_ne_id hr), rfl, rfl, rfl⟩

theorem step_assertReset (rest : List Turn) (s : State) :
    step { s with turns := .assertReset :: rest } = .next (holdInReset { s with turns := rest }) := rfl

/-- Settles O53: the step that samples `rst_n` low leaves `holdInReset`, and an access is not performed until it is high. -/
theorem resetOverridesEverything : Obligations.ResetOverridesEverything :=
  ⟨fun s rest => ⟨_, step_assertReset rest s, rfl, rfl, rfl, rfl, fun r => readReg_holdInReset r _⟩,
    fun _ _ hr => busAccess_while_reset hr⟩

end Sys2Proof.Machine
end

section
/-! The values left unspecified at reset cannot be observed (spec/70_reset_and_hazards.md R251, R253): two states that differ
only where nothing will be read answer every turn with two such states, and their outputs are the same. -/

namespace Sys2Proof.Machine

/-- The state with other values of the registers that R251 leaves unspecified. -/
def State.withInternal (s : State) (t : BitVec 7) (bitlen : BitVec 64) (work : Work) (w : Words16) : State :=
  { s with t := t, bitlen := bitlen, work := work, w := w }

/-- Two states that differ only in internal values that a block start or SHA_FINAL writes before they are read (R253). -/
inductive Indistinguishable (s : State) : State → Prop
  /-- an idle engine reads none of the internal registers -/
  | idle (t : BitVec 7) (bitlen : BitVec 64) (work : Work) (w : Words16) : s.phase = .idle →
      Indistinguishable s (s.withInternal t bitlen work w)
  /-- a running engine reads t, A..E and W, and BITLEN only if a second padding block is pending -/
  | running (bitlen : BitVec 64) : s.phase ≠ .idle → (s.pend2 = true → bitlen = s.bitlen) →
      Indistinguishable s (s.withInternal s.t bitlen s.work s.w)

theorem Indistinguishable.refl (s : State) : Indistinguishable s s := by
  by_cases hi : s.phase = .idle
  · exact .idle s.t s.bitlen s.work s.w hi
  · exact .running s.bitlen hi fun _ => rfl

/-- A change of state that neither reads nor writes the internal registers, the phase and PEND2. -/
structure IgnoresInternal (f : State → State) : Prop where
  withInternal : ∀ s t bitlen work w, f (s.withInternal t bitlen work w) = (f s).withInternal t bitlen work w
  phase : ∀ s, (f s).phase = s.phase
  pend2 : ∀ s, (f s).pend2 = s.pend2

/-- Such a change keeps two states indistinguishable. -/
theorem Indistinguishable.map {s s' : State} (h : Indistinguishable s s') {f : State → State} (hf : IgnoresInternal f) :
    Indistinguishable (f s) (f s') := by
  cases h with
  | idle t bitlen work w hi =>
    rw [hf.withInternal]
    exact .idle t bitlen work w ((hf.phase s).trans hi)
  | running bitlen hb hl =>
    have hself : f s = (f s).withInternal s.t s.bitlen s.work s.w := hf.withInternal s s.t s.bitlen s.work s.w
    rw [hf.withInternal, hself]
    exact .running bitlen (hf.phase s ▸ hb) (hf.pend2 s ▸ hl)

theorem ignoresInternal_raiseError (kind : ErrorKind) : IgnoresInternal (raiseError kind) :=
  ⟨fun _ _ _ _ _ => rfl, fun _ => rfl, fun _ => rfl⟩

theorem ignoresInternal_respond (a : Access) (v : Word) : IgnoresInternal (respond a v) :=
  ⟨fun _ _ _ _ _ => rfl, fun _ => rfl, fun _ => rfl⟩

theorem ignoresInternal_storeReg (r : Reg) (v : Word) : IgnoresInternal (storeReg r v) :=
  ⟨fun _ _ _ _ _ => by cases r <;> rfl, storeReg_phase r v, storeReg_pend2 r v⟩

theorem ignoresInternal_dropTurn : IgnoresInternal dropTurn :=
  ⟨fun _ _ _ _ _ => rfl, fun _ => rfl, fun _ => rfl⟩

theorem ignoresInternal_hostGoto (n : Nat) : IgnoresInternal (hostGoto n) :=
  ⟨fun _ _ _ _ _ => rfl, fun _ => rfl, fun _ => rfl⟩

theorem ignoresInternal_releaseReset : IgnoresInternal fun s => { s with rstN := true } :=
  ⟨fun _ _ _ _ _ => rfl, fun _ => rfl, fun _ => rfl⟩

/-- A branch of the host looks at `bus_rdata` only (R102). -/
theorem ignoresInternal_after (op : HostOp) : IgnoresInternal op.after where
  withInternal s t bitlen work w := by
    cases op with
    | wr r v => rfl
    | rd r => rfl
    | beq r mask value target =>
      exact (apply_ite (State.withInternal · t bitlen work w) (s.rdata.getD 0 &&& mask = value) (hostGoto target s) s).symm
  phase s := by
    obtain ⟨_, h⟩ := after_changes_host_only op s
    rw [h]
  pend2 s := by
    obtain ⟨_, h⟩ := after_changes_host_only op s
    rw [h]

/-- An accepted command that starts the engine writes every internal register that will be read (R115, R121, R124). -/
theorem Indistinguishable.acceptedState {s s' : State} (h : Indistinguishable s s') (hi : s.phase = .idle) (i : Instr) :
    Indistinguishable (acceptedState i s) (acceptedState i s') := by
  cases h with
  | running bitlen hb _ => exact absurd hi hb
  | idle t bitlen work w _ =>
    cases i with
    | shaCompress => exact .running bitlen nofun nofun
    | shaFinal n =>
      refine .running _ nofun fun h2 => ?_
      have hn : ¬ argCount n ≤ 55 := Nat.not_le.mpr (of_decide_eq_true h2)
      exact (if_neg hn).trans (if_neg hn).symm
    | zeroize => exact .idle t 0 ⟨0, 0, 0, 0, 0⟩ zero16 hi
    | _ => exact .idle t bitlen work w hi

/-- The engine reads t, A..E and W in its rounds and BITLEN where PEND2 = 1 (R116, R117), and these are the same. -/
theorem Indistinguishable.engineStep {s s' : State} (h : Indistinguishable s s') :
    Indistinguishable (engineStep s) (engineStep s') := by
  cases h with
  | idle t bitlen work w hi =>
    rw [engineStep_of_idle hi, engineStep_of_idle (s := s.withInternal t bitlen work w) hi]
    exact .idle t bitlen work w hi
  | running bitlen hb hl =>
    let s' := s.withInternal s.t bitlen s.work s.w
    cases hp : s.phase
    case idle => exact absurd hp hb
    case round =>
      rw [engineStep_of_round hp, engineStep_of_round (s := s') hp]
      by_cases ht : s.t = 79
      · rw [roundStep_of_last ht, roundStep_of_last (s := s') ht]
        exact .running bitlen nofun hl
      · rw [roundStep_of_lt ht, roundStep_of_lt (s := s') ht]
        exact .running bitlen hb hl
    case feed =>
      rw [engineStep_of_feed hp, engineStep_of_feed (s := s') hp]
      cases h2 : s.pend2
      · rw [feedStep_of_last h2, feedStep_of_last (s := s') h2]
        exact .idle s.t bitlen s.work s.w rfl
      · obtain rfl := hl h2
        exact .refl _

/-- Both outcomes are next states, and these are indistinguishable. -/
def AnswerAlike (o o' : Host.Outcome State Fault Refusal) : Prop :=
  ∃ t t', o = .next t ∧ o' = .next t' ∧ Indistinguishable t t'

theorem Indistinguishable.answerAlike {t t' : State} (h : Indistinguishable t t') : AnswerAlike (.next t) (.next t') :=
  ⟨t, t', rfl, rfl, h⟩

section
variable {s s' : State} (h : Indistinguishable s s')
include h

theorem Indistinguishable.phase_eq : s'.phase = s.phase := by cases h <;> rfl

theorem Indistinguishable.busy_eq : s'.busy = s.busy := by cases h <;> rfl

theorem Indistinguishable.rstN_eq : s'.rstN = s.rstN := by cases h <;> rfl

theorem Indistinguishable.host_eq : s'.host = s.host := by cases h <;> rfl

theorem Indistinguishable.readReg_eq (r : Reg) : readReg r s' = readReg r s := by cases h <;> cases r <;> rfl

theorem Indistinguishable.nextTurn_eq : nextTurn s' = nextTurn s := by cases h <;> rfl

theorem Indistinguishable.outputs_eq : s'.outputs = s.outputs := by cases h <;> rfl

theorem Indistinguishable.raiseError (kind : ErrorKind) : Indistinguishable (raiseError kind s) (raiseError kind s') :=
  h.map (ignoresInternal_raiseError kind)

theorem Indistinguishable.respond (a : Access) (v : Word) : Indistinguishable (respond a v s) (respond a v s') :=
  h.map (ignoresInternal_respond a v)

theorem Indistinguishable.exec (i : Instr) : AnswerAlike (exec i s) (exec i s') := by
  by_cases hi : s.phase = .idle
  · rw [exec_of_idle i hi, exec_of_idle i (h.phase_eq.trans hi)]
    cases i.wf
    · exact (h.raiseError .errArg).answerAlike
    · exact (h.acceptedState hi i).answerAlike
  · rw [exec_of_busy i hi, exec_of_busy i (h.phase_eq ▸ hi)]
    exact (h.raiseError .errBusy).answerAlike

theorem Indistinguishable.writeCmd (c : Word) : AnswerAlike (writeCmd c s) (writeCmd c s') := by
  unfold Machine.writeCmd
  rw [h.busy_eq]
  split
  · exact (h.raiseError .errBusy).answerAlike
  · cases decode c with
    | error e => exact (h.raiseError .errOpcode).answerAlike
    | ok i => exact h.exec i

theorem Indistinguishable.writeReg (r : Reg) (v : Word) : AnswerAlike (writeReg r v s) (writeReg r v s') := by
  unfold Machine.writeReg
  rw [h.busy_eq]
  split
  · exact (h.raiseError .errBusy).answerAlike
  split
  · exact (h.raiseError .errAccess).answerAlike
  split
  · exact h.writeCmd v
  · exact (h.map (ignoresInternal_storeReg r v)).answerAlike

theorem Indistinguishable.busAccess (a : Access) : AnswerAlike (busAccess a s) (busAccess a s') := by
  have hrefused := (h.raiseError .errAccess).respond a 0
  unfold Machine.busAccess
  rw [h.rstN_eq]
  split
  · exact (h.respond a 0).answerAlike
  split
  · exact hrefused.answerAlike
  cases regAt a.offset with
  | none => exact hrefused.answerAlike
  | some r =>
    cases a.write
    · have hread : Indistinguishable (Machine.respond a (readReg r s) s) (Machine.respond a (readReg r s') s') :=
        h.readReg_eq r ▸ h.respond a (readReg r s)
      exact hread.answerAlike
    · exact (h.respond a 0).writeReg r a.wdata

theorem Indistinguishable.hostTurn : AnswerAlike (hostTurn s) (hostTurn s') := by
  unfold Machine.hostTurn
  rw [h.host_eq]
  cases s.host.prog[s.host.pc]? with
  | none => exact h.answerAlike
  | some op =>
    obtain ⟨u, u', hu, hu', hsame⟩ := (h.map (ignoresInternal_hostGoto (s.host.pc + 1))).busAccess op.access
    simp only [hu, hu']
    exact (hsame.map (ignoresInternal_after op)).answerAlike

theorem Indistinguishable.engineTurn : Indistinguishable (engineTurn s) (engineTurn s') := by
  unfold Machine.engineTurn
  rw [h.rstN_eq]
  split
  · exact h.engineStep
  · exact h

theorem Indistinguishable.takeTurn (turn : Turn) : AnswerAlike (takeTurn turn s) (takeTurn turn s') := by
  cases turn with
  | host => exact h.hostTurn
  | bus a => exact h.busAccess a
  | engine => exact h.engineTurn.answerAlike
  | assertReset =>
    have hsame : Indistinguishable (holdInReset s) (holdInReset s') := by cases h <;> exact .refl _
    exact hsame.answerAlike
  | releaseReset => exact (h.map ignoresInternal_releaseReset).answerAlike

theorem Indistinguishable.step : AnswerAlike (step s) (step s') := by
  unfold Machine.step
  rw [h.nextTurn_eq]
  exact (h.map ignoresInternal_dropTurn).takeTurn (nextTurn s)

end

/-- Two indistinguishable states give the same outputs for ever. -/
theorem Indistinguishable.outputsOver_eq (n : Nat) {s s' : State} (h : Indistinguishable s s') :
    outputsOver n s' = outputsOver n s := by
  induction n generalizing s s' with
  | zero => rfl
  | succ n ih =>
    obtain ⟨t, t', ht, ht', hsame⟩ := h.step
    simp only [outputsOver, ht, ht', hsame.outputs_eq, ih hsame]

/-- Settles O52: an idle machine is indistinguishable from itself with any internal values. -/
theorem unspecifiedValuesAreUnobservable : Obligations.UnspecifiedValuesAreUnobservable :=
  fun _ t bitlen work w n hi => (Indistinguishable.idle t bitlen work w hi).outputsOver_eq n

end Sys2Proof.Machine
end
